-- ==== Sys2Proof/Word.lean ====
section
/-! DEFINITION. The widths the spec gives its values: bytes, 16-bit words, 12-bit addresses, register indices (00_scope.md R8, R10; 30_encoding.md R92). -/

namespace Sys2Proof

/-- A byte: a memory cell, a general register, a timer (R8 `XLEN`, `TIMER_BITS`). -/
abbrev Byte := BitVec 8

/-- A 16-bit value: an instruction word, register `I`, an entry of the call stack (R8 `ILEN_REG`, R24, R90). -/
abbrev Word := BitVec 16

/-- A 12-bit address: the field `nnn` and the program counter (R23, R92). -/
abbrev Addr := BitVec 12

/-- The index of a general register, V0 to VF (R20: "the register index comes from a 4-bit instruction field, so it is always in range"). -/
abbrev RegIx := Fin 16

/-- A Boolean used as a number is 1 for true and 0 for false (R10). -/
def bitByte (b : Bool) : Byte := if b then 1 else 0

end Sys2Proof
end

