-- ==== Sys2Proof/Syntax.lean ====
section
/-! DEFINITION. The 35 instruction shapes, one constructor per row of spec/opcode_table.json, in the order of 30_encoding.md R96, with the operand fields of R92. -/

namespace Sys2Proof

/-- A decoded instruction (R95, R96): immutable once decoded (R100). -/
inductive Instr where
  /-- 00E0: clear screen (R192). -/
  | cls
  /-- 00EE: return (R126). -/
  | ret
  /-- 0NNN other than 00E0 and 00EE: legacy machine-code call, always faults (R98, R127). -/
  | sys (nnn : Addr)
  /-- 1NNN: jump (R128). -/
  | jmp (nnn : Addr)
  /-- 2NNN: call (R129). -/
  | call (nnn : Addr)
  /-- 3XNN: skip if equal, immediate (R131). -/
  | skei (x : RegIx) (nn : Byte)
  /-- 4XNN: skip if not equal, immediate (R132). -/
  | skni (x : RegIx) (nn : Byte)
  /-- 5XY0: skip if equal, register (R133). -/
  | sker (x y : RegIx)
  /-- 6XNN: move immediate (R142). -/
  | mov (x : RegIx) (nn : Byte)
  /-- 7XNN: add immediate, no flag (R143). -/
  | addi (x : RegIx) (nn : Byte)
  /-- 8XY0: copy register (R144). -/
  | cpy (x y : RegIx)
  /-- 8XY1 (R145). -/
  | or (x y : RegIx)
  /-- 8XY2 (R146). -/
  | and (x y : RegIx)
  /-- 8XY3 (R147). -/
  | xor (x y : RegIx)
  /-- 8XY4: add with carry out (R148). -/
  | add (x y : RegIx)
  /-- 8XY5: Vx - Vy with no-borrow out (R149). -/
  | sub (x y : RegIx)
  /-- 8XY6: shift right by 1; y is decoded and ignored (R99, R150). -/
  | shr (x y : RegIx)
  /-- 8XY7: Vy - Vx with no-borrow out (R151). -/
  | rsb (x y : RegIx)
  /-- 8XYE: shift left by 1; y is decoded and ignored (R99, R152). -/
  | shl (x y : RegIx)
  /-- 9XY0: skip if not equal, register (R134). -/
  | sknr (x y : RegIx)
  /-- ANNN: load I (R171). -/
  | ldi (nnn : Addr)
  /-- BNNN: jump to nnn + V0 (R130). -/
  | jmpv (nnn : Addr)
  /-- CXNN: random byte AND nn (R153). -/
  | rnd (x : RegIx) (nn : Byte)
  /-- DXYN: draw an n-row sprite (R194). -/
  | drw (x y : RegIx) (n : BitVec 4)
  /-- EX9E: skip if key Vx pressed (R231). -/
  | skp (x : RegIx)
  /-- EXA1: skip if key Vx not pressed (R232). -/
  | sknp (x : RegIx)
  /-- FX07: get delay timer (R216). -/
  | gdt (x : RegIx)
  /-- FX0A: wait for a key (R233). -/
  | key (x : RegIx)
  /-- FX15: set delay timer (R217). -/
  | sdt (x : RegIx)
  /-- FX18: set sound timer (R218). -/
  | sst (x : RegIx)
  /-- FX1E: add Vx to I (R172). -/
  | adi (x : RegIx)
  /-- FX29: I := font address of digit Vx (R173). -/
  | fnt (x : RegIx)
  /-- FX33: store the three decimal digits of Vx (R174). -/
  | bcd (x : RegIx)
  /-- FX55: store V0..Vx (R175). -/
  | stm (x : RegIx)
  /-- FX65: load V0..Vx (R176). -/
  | ldm (x : RegIx)
deriving DecidableEq, Repr

/-- The mnemonic of an instruction's row in the opcode table (R96, R110). -/
def Instr.mnemonic : Instr → String
  | .cls => "CLS" | .ret => "RET" | .sys _ => "SYS" | .jmp _ => "JMP" | .call _ => "CALL"
  | .skei _ _ => "SKEI" | .skni _ _ => "SKNI" | .sker _ _ => "SKER" | .mov _ _ => "MOV"
  | .addi _ _ => "ADDI" | .cpy _ _ => "CPY" | .or _ _ => "OR" | .and _ _ => "AND"
  | .xor _ _ => "XOR" | .add _ _ => "ADD" | .sub _ _ => "SUB" | .shr _ _ => "SHR"
  | .rsb _ _ => "RSB" | .shl _ _ => "SHL" | .sknr _ _ => "SKNR" | .ldi _ => "LDI"
  | .jmpv _ => "JMPV" | .rnd _ _ => "RND" | .drw _ _ _ => "DRW" | .skp _ => "SKP"
  | .sknp _ => "SKNP" | .gdt _ => "GDT" | .key _ => "KEY" | .sdt _ => "SDT" | .sst _ => "SST"
  | .adi _ => "ADI" | .fnt _ => "FNT" | .bcd _ => "BCD" | .stm _ => "STM" | .ldm _ => "LDM"

end Sys2Proof
end

