-- ==== Sys2Proof/WellFormed.lean ====
section
/-! DEFINITION. Which terms of Instr stand for an instruction: every field's range is in its type; the one condition left is that SYS is not a word that the rows CLS and RET take first (30_encoding.md R96, R98). -/

namespace Sys2Proof

/-- The term is one of the 35 shapes as R96 partitions the words. -/
def Instr.wellFormed : Instr → Bool
  | .sys nnn => nnn != 0x0E0 && nnn != 0x0EE
  | .cls | .ret | .jmp _ | .call _ | .ldi _ | .jmpv _ => true
  | .skei _ _ | .skni _ _ | .mov _ _ | .addi _ _ | .rnd _ _ => true
  | .sker _ _ | .sknr _ _ | .cpy _ _ | .or _ _ | .and _ _ | .xor _ _ => true
  | .add _ _ | .sub _ _ | .shr _ _ | .rsb _ _ | .shl _ _ => true
  | .drw _ _ _ => true
  | .skp _ | .sknp _ | .gdt _ | .key _ | .sdt _ | .sst _ => true
  | .adi _ | .fnt _ | .bcd _ | .stm _ | .ldm _ => true

end Sys2Proof
end

