-- ==== Sys2Proof/Decode.lean ====
section
/-! DEFINITION. The decoder (30_encoding.md R91, R92, R95 to R97), the encoder written from the same patterns (R96), and the opcode table as rows of mask and match. -/

namespace Sys2Proof

/-- The failure `DecodeError(msb, lsb)`, identifying the two raw bytes (R95, R97). -/
structure DecodeError where
  msb : Byte
  lsb : Byte
deriving DecidableEq, Repr

/-- Field `x`, `w[11:8]` (R92). -/
def fieldX (w : Word) : RegIx := (w.extractLsb' 8 4).toFin

/-- Field `y`, `w[7:4]` (R92). -/
def fieldY (w : Word) : RegIx := (w.extractLsb' 4 4).toFin

/-- Field `n`, `w[3:0]` (R92); it is also nibble `n3` (R91). -/
def fieldN (w : Word) : BitVec 4 := w.extractLsb' 0 4

/-- Field `nn`, `w[7:0]` (R92). -/
def fieldNN (w : Word) : Byte := w.extractLsb' 0 8

/-- Field `nnn`, `w[11:0]` (R92). -/
def fieldNNN (w : Word) : Addr := w.extractLsb' 0 12

/-- Nibble `n0`, `w[15:12]` (R91). -/
def nibble0 (w : Word) : BitVec 4 := w.extractLsb' 12 4

/-- The family `8XYk`, sub-selected on the last nibble (R96 rows 11 to 19). -/
def decode8 (x y : RegIx) : Nat → Option Instr
  | 0x0 => some (.cpy x y)
  | 0x1 => some (.or x y)
  | 0x2 => some (.and x y)
  | 0x3 => some (.xor x y)
  | 0x4 => some (.add x y)
  | 0x5 => some (.sub x y)
  | 0x6 => some (.shr x y)
  | 0x7 => some (.rsb x y)
  | 0xE => some (.shl x y)
  | _ => none

/-- The family `EXkk`, sub-selected on the low byte (R96 rows 25, 26). -/
def decodeE (x : RegIx) : Nat → Option Instr
  | 0x9E => some (.skp x)
  | 0xA1 => some (.sknp x)
  | _ => none

/-- The family `FXkk`, sub-selected on the low byte (R96 rows 27 to 35). -/
def decodeF (x : RegIx) : Nat → Option Instr
  | 0x07 => some (.gdt x)
  | 0x0A => some (.key x)
  | 0x15 => some (.sdt x)
  | 0x18 => some (.sst x)
  | 0x1E => some (.adi x)
  | 0x29 => some (.fnt x)
  | 0x33 => some (.bcd x)
  | 0x55 => some (.stm x)
  | 0x65 => some (.ldm x)
  | _ => none

/-- The family `0NNN`: CLS and RET are tested before SYS (R96 rows 1 to 3). -/
def decode0 (nnn : Addr) : Instr :=
  if nnn = 0x0E0 then .cls else if nnn = 0x0EE then .ret else .sys nnn

/-- Selection on `n0`, then on the trailing nibbles (R95, R96); `none` for the illegal words of R97. -/
def decodeWord (w : Word) : Option Instr :=
  match (nibble0 w).toNat with
  | 0x0 => some (decode0 (fieldNNN w))
  | 0x1 => some (.jmp (fieldNNN w))
  | 0x2 => some (.call (fieldNNN w))
  | 0x3 => some (.skei (fieldX w) (fieldNN w))
  | 0x4 => some (.skni (fieldX w) (fieldNN w))
  | 0x5 => if fieldN w = 0 then some (.sker (fieldX w) (fieldY w)) else none
  | 0x6 => some (.mov (fieldX w) (fieldNN w))
  | 0x7 => some (.addi (fieldX w) (fieldNN w))
  | 0x8 => decode8 (fieldX w) (fieldY w) (fieldN w).toNat
  | 0x9 => if fieldN w = 0 then some (.sknr (fieldX w) (fieldY w)) else none
  | 0xA => some (.ldi (fieldNNN w))
  | 0xB => some (.jmpv (fieldNNN w))
  | 0xC => some (.rnd (fieldX w) (fieldNN w))
  | 0xD => some (.drw (fieldX w) (fieldY w) (fieldN w))
  | 0xE => decodeE (fieldX w) (fieldNN w).toNat
  | 0xF => decodeF (fieldX w) (fieldNN w).toNat
  | _ => none

/-- `Decode(msb, lsb)`: a pure function of the two bytes, `w = msb ++ lsb` (R91, R95). -/
def decode (msb lsb : Byte) : Except DecodeError Instr :=
  match decodeWord (msb ++ lsb) with
  | some i => .ok i
  | none => .error ⟨msb, lsb⟩

/-- Format `NNN`: `cNNN` (R93). -/
def encNNN (c : BitVec 4) (nnn : Addr) : Word := c ++ nnn

/-- Format `XNN`: `cXNN` (R93); `Xkk` is the same with a fixed low byte. -/
def encXNN (c : BitVec 4) (x : RegIx) (nn : Byte) : Word :=
  (c ++ (BitVec.ofFin x : BitVec 4)) ++ nn

/-- Format `XYN`: `cXYN` (R93); `XYk` is the same with a fixed last nibble. -/
def encXYN (c : BitVec 4) (x y : RegIx) (n : BitVec 4) : Word :=
  (c ++ (BitVec.ofFin x : BitVec 4)) ++ ((BitVec.ofFin y : BitVec 4) ++ n)

/-- The word of an instruction: the pattern of R96 with the fields at the positions of R92 (R100). -/
def encode : Instr → Word
  | .cls => 0x00E0
  | .ret => 0x00EE
  | .sys nnn => encNNN 0x0 nnn
  | .jmp nnn => encNNN 0x1 nnn
  | .call nnn => encNNN 0x2 nnn
  | .skei x nn => encXNN 0x3 x nn
  | .skni x nn => encXNN 0x4 x nn
  | .sker x y => encXYN 0x5 x y 0x0
  | .mov x nn => encXNN 0x6 x nn
  | .addi x nn => encXNN 0x7 x nn
  | .cpy x y => encXYN 0x8 x y 0x0
  | .or x y => encXYN 0x8 x y 0x1
  | .and x y => encXYN 0x8 x y 0x2
  | .xor x y => encXYN 0x8 x y 0x3
  | .add x y => encXYN 0x8 x y 0x4
  | .sub x y => encXYN 0x8 x y 0x5
  | .shr x y => encXYN 0x8 x y 0x6
  | .rsb x y => encXYN 0x8 x y 0x7
  | .shl x y => encXYN 0x8 x y 0xE
  | .sknr x y => encXYN 0x9 x y 0x0
  | .ldi nnn => encNNN 0xA nnn
  | .jmpv nnn => encNNN 0xB nnn
  | .rnd x nn => encXNN 0xC x nn
  | .drw x y n => encXYN 0xD x y n
  | .skp x => encXNN 0xE x 0x9E
  | .sknp x => encXNN 0xE x 0xA1
  | .gdt x => encXNN 0xF x 0x07
  | .key x => encXNN 0xF x 0x0A
  | .sdt x => encXNN 0xF x 0x15
  | .sst x => encXNN 0xF x 0x18
  | .adi x => encXNN 0xF x 0x1E
  | .fnt x => encXNN 0xF x 0x29
  | .bcd x => encXNN 0xF x 0x33
  | .stm x => encXNN 0xF x 0x55
  | .ldm x => encXNN 0xF x 0x65

/-- The most significant byte of a word, the one at the lower address (R67, R91). -/
def msbOf (w : Word) : Byte := w.extractLsb' 8 8

/-- The least significant byte of a word (R67, R91). -/
def lsbOf (w : Word) : Byte := w.extractLsb' 0 8

/-- One row of the opcode table: it is selected when `(w & mask) == value` (R96, column `match`). -/
structure OpcodeRow where
  mnemonic : String
  value : Word
  mask : Word
deriving DecidableEq, Repr

/-- Rows 1 to 10 of R96. -/
def opcodeRowsA : List OpcodeRow :=
  [⟨"CLS", 0x00E0, 0xFFFF⟩, ⟨"RET", 0x00EE, 0xFFFF⟩, ⟨"SYS", 0x0000, 0xF000⟩, ⟨"JMP", 0x1000, 0xF000⟩,
   ⟨"CALL", 0x2000, 0xF000⟩, ⟨"SKEI", 0x3000, 0xF000⟩, ⟨"SKNI", 0x4000, 0xF000⟩, ⟨"SKER", 0x5000, 0xF00F⟩,
   ⟨"MOV", 0x6000, 0xF000⟩, ⟨"ADDI", 0x7000, 0xF000⟩]

/-- Rows 11 to 24 of R96. -/
def opcodeRowsB : List OpcodeRow :=
  [⟨"CPY", 0x8000, 0xF00F⟩, ⟨"OR", 0x8001, 0xF00F⟩, ⟨"AND", 0x8002, 0xF00F⟩, ⟨"XOR", 0x8003, 0xF00F⟩,
   ⟨"ADD", 0x8004, 0xF00F⟩, ⟨"SUB", 0x8005, 0xF00F⟩, ⟨"SHR", 0x8006, 0xF00F⟩, ⟨"RSB", 0x8007, 0xF00F⟩,
   ⟨"SHL", 0x800E, 0xF00F⟩, ⟨"SKNR", 0x9000, 0xF00F⟩, ⟨"LDI", 0xA000, 0xF000⟩, ⟨"JMPV", 0xB000, 0xF000⟩,
   ⟨"RND", 0xC000, 0xF000⟩, ⟨"DRW", 0xD000, 0xF000⟩]

/-- Rows 25 to 35 of R96. -/
def opcodeRowsC : List OpcodeRow :=
  [⟨"SKP", 0xE09E, 0xF0FF⟩, ⟨"SKNP", 0xE0A1, 0xF0FF⟩, ⟨"GDT", 0xF007, 0xF0FF⟩, ⟨"KEY", 0xF00A, 0xF0FF⟩,
   ⟨"SDT", 0xF015, 0xF0FF⟩, ⟨"SST", 0xF018, 0xF0FF⟩, ⟨"ADI", 0xF01E, 0xF0FF⟩, ⟨"FNT", 0xF029, 0xF0FF⟩,
   ⟨"BCD", 0xF033, 0xF0FF⟩, ⟨"STM", 0xF055, 0xF0FF⟩, ⟨"LDM", 0xF065, 0xF0FF⟩]

/-- The 35 rows of R96, in the order in which a word is tested against them. -/
def opcodeRows : List OpcodeRow := opcodeRowsA ++ opcodeRowsB ++ opcodeRowsC

/-- The word is tested against the row (R96). -/
def OpcodeRow.selects (r : OpcodeRow) (w : Word) : Bool := w &&& r.mask == r.value

/-- The instruction the decoder reads from the `nbits` low bits of `w`, numbered as spec/opcode_table.json numbers them (one 16-bit word, most significant byte first in memory, R67); bits above `nbits` are 0 (log 17). -/
def decodeTableWord (nbits w : Nat) : Option Instr :=
  let word : Word := BitVec.ofNat 16 (w % 2 ^ nbits)
  match decode (msbOf word) (lsbOf word) with
  | .ok i => some i
  | .error _ => none

end Sys2Proof
end

