-- ==== Sys2Proof/Config.lean ====
section
/-! DEFINITION. The fixed parameters (00_scope.md R8), the open parameter FX1E_SETS_VF (R9) and the free draws of events and inputs: the constants with no body are what the spec leaves open, so nothing can be proved of their values. -/

namespace Sys2Proof.Config

/-- `MEM_SIZE`: bytes of memory, addresses 0 to 4095 (R8). -/
@[simp] abbrev memSize : Nat := 4096

/-- `PROG_BASE` = `SYS_END`: first address of the program region (R8). -/
@[simp] abbrev progBase : Nat := 512

/-- `PROG_MAX`: largest program in bytes (R8). -/
@[simp] abbrev progMax : Nat := 3584

/-- `GLYPH_BYTES`: bytes per glyph of the font (R8). -/
@[simp] abbrev glyphBytes : Nat := 5

/-- `FONT_END`: the font occupies addresses 0 to 79 (R8). -/
@[simp] abbrev fontEnd : Nat := 80

/-- `STACK_DEPTH`: entries of the call stack (R8). -/
@[simp] abbrev stackDepth : Nat := 64

/-- `FB_W`: framebuffer columns (R8). -/
@[simp] abbrev fbW : Nat := 64

/-- `FB_H`: framebuffer rows (R8). -/
@[simp] abbrev fbH : Nat := 32

/-- `SPRITE_W`: sprite width in pixels (R8). -/
@[simp] abbrev spriteW : Nat := 8

/-- `NKEYS`: keys, indices 0 to 15 (R8). -/
@[simp] abbrev nkeys : Nat := 16

/-- `FX1E_SETS_VF` (R9, R172): whether ADI writes VF; the spec gives no default (D36), so the constant has no body (log 5). -/
opaque fx1eSetsVF : Bool

/-- Whether the n-th event the schedule leaves free is a `reset`, and with which program: the host may issue one at any time (R280, R299, log 6). -/
opaque resetDraw : Nat → Option (List Byte)

/-- Whether the n-th free event, no `reset`, is a `timer_tick` and no `cpu_step`: any infinite sequence over the two is a legal schedule (R286, D25, log 6). -/
opaque tickDraw : Nat → Bool

/-- The sixteen lines `keys[0..15]` the host presents in the n-th free event, a `cpu_step`: under no law (R230, log 7). -/
opaque keysDraw : Nat → BitVec 16

/-- The byte on `rand` in the n-th such event: a draw under no law (R153, D24, log 7). -/
opaque randDraw : Nat → Byte

/-- The external keypad's answer in the n-th such event when several keys are pressed (R233 `KEY_CHOICE`, D34, log 8). -/
opaque keyPickDraw : Nat → Nat

end Sys2Proof.Config
end

