-- ==== Sys2Proof/Machine/Font.lean ====
section
/-! DEFINITION. The parameter FONT_TABLE (00_scope.md R9), its default (20_memory.md R70, R71) and the reset contents of memory (20_memory.md R64; 10_state.md R36). -/

namespace Sys2Proof.Machine

/-- The glyphs of the digits 0 to 7, five bytes each, top row first (R70, R71). -/
def fontLow : List Byte :=
  [0xF0, 0x90, 0x90, 0x90, 0xF0] ++ [0x20, 0x60, 0x20, 0x20, 0x70] ++
  [0xF0, 0x10, 0xF0, 0x80, 0xF0] ++ [0xF0, 0x10, 0xF0, 0x10, 0xF0] ++
  [0x90, 0x90, 0xF0, 0x10, 0x10] ++ [0xF0, 0x80, 0xF0, 0x10, 0xF0] ++
  [0xF0, 0x80, 0xF0, 0x90, 0xF0] ++ [0xF0, 0x10, 0x20, 0x40, 0x40]

/-- The glyphs of the digits 8 to F (R70, R71). -/
def fontHigh : List Byte :=
  [0xF0, 0x90, 0xF0, 0x90, 0xF0] ++ [0xF0, 0x90, 0xF0, 0x10, 0xF0] ++
  [0xF0, 0x90, 0xF0, 0x90, 0x90] ++ [0xE0, 0x90, 0xE0, 0x90, 0xE0] ++
  [0xF0, 0x80, 0x80, 0x80, 0xF0] ++ [0xE0, 0x90, 0x90, 0x90, 0xE0] ++
  [0xF0, 0x80, 0xF0, 0x80, 0xF0] ++ [0xF0, 0x80, 0xF0, 0x80, 0x80]

/-- The type of the parameter `FONT_TABLE`: 80 bytes (R9). -/
abbrev FontTable := Vector Byte Config.fontEnd

/-- The default of the parameter `FONT_TABLE` (R9, R71; PRESUMED: the spec marks the bytes as general knowledge; log 4). -/
def defaultFontTable : FontTable := ⟨(fontLow ++ fontHigh).toArray, rfl⟩

/-- What an address that memory does not list reads as: the contents at reset with an empty program, that is the font table in [0,80) and 0 above it (R36, R64, log 14). -/
def resetByte (font : FontTable) (a : Nat) : Byte := if h : a < Config.fontEnd then font[a] else 0

end Sys2Proof.Machine
end

