-- ==== Sys2Proof/Machine/State.lean ====
section
/-! DEFINITION. The state of the block (10_state.md R20 to R33) as plain data, the reasons a step can end in, and the state right after reset (R36). -/

namespace Sys2Proof.Machine

/-- The six fault kinds (60_exceptions.md R240). A fault kind is what the fault RECORD holds: the block takes a fault by halting itself (R243), so a step that faults answers a next state with `status = halted`, and no meaning answers `Host.Outcome.fault` (log 1; safe: the halted state is observable and never a successful end, R246). -/
inductive Fault where
  /-- Code 1: the decode stage, on an illegal word of R97. Safe: a fault of the spec. -/
  | decodeError
  /-- Code 2: the fetch stage, a taken skip, JMPV, BCD, STM, LDM, DRW, SKP, SKNP, on an access beyond a valid range (R241). Safe: a fault of the spec. -/
  | outOfBounds
  /-- Code 3: CALL with 64 entries on the stack. Safe: a fault of the spec. -/
  | stackOverflow
  /-- Code 4: RET with an empty stack. Safe: a fault of the spec. -/
  | stackUnderflow
  /-- Code 5: `reset(program)` with more than 3584 bytes. Safe: a fault of the spec. -/
  | programTooLarge
  /-- Code 6: SYS. Safe: a fault of the spec. -/
  | unsupportedInstruction
deriving DecidableEq, Repr

/-- Why the model gives no meaning. -/
inductive Refusal where
  /-- Raised by `exec` for an instruction the model does not cover yet, by its mnemonic (none at present). Safe: the run stops. -/
  | notModelled (mnemonic : String)
  /-- Raised by `step` on a `cpu_step` or `timer_tick` before the first `reset`: "no event other than `reset` has a defined effect" (10_state.md R36; 93 item 31: refuse; log 10). Safe: the run stops. -/
  | beforeFirstReset
deriving DecidableEq, Repr

/-- The core status (R30). -/
inductive Status where
  /-- The next `cpu_step` fetches an instruction. -/
  | running
  /-- KEY is blocked: the next `cpu_step` polls the keys for register `x`. -/
  | waitKey (x : RegIx)
  /-- A fault has occurred; only `reset` leaves this status. -/
  | halted
deriving DecidableEq, Repr

/-- The lifecycle status a timer operation returns (44_timers.md R210, R211, R212); `ended` is the spec's `End`. -/
inductive TimerStatus where
  | stopped
  | started
  | running
  | ended
deriving DecidableEq, Repr

/-- The fault record (R31, R242): the bytes are absent for a fetch-stage fault and for ProgramTooLarge. -/
structure FaultRecord where
  kind : Fault
  pc0 : Addr
  msb : Option Byte
  lsb : Option Byte
deriving DecidableEq, Repr

/-- What the outside presents during one `cpu_step` (R33): bit k of `keys` is `keys[k]`; `keyPick` is the external keypad's answer among several pressed keys (R233, log 8). -/
structure Inputs where
  keys : BitVec 16
  rand : Byte
  keyPick : Nat
deriving DecidableEq, Repr

/-- The three events on which the block changes state (R13, R34); a `cpu_step` carries the inputs the host presents in it. -/
inductive Event where
  | reset (program : List Byte)
  | cpuStep (inputs : Inputs)
  | timerTick
deriving DecidableEq, Repr

/-- The block's boundary, which is no state of the block (R18, R33): the inputs and the `present` pulse of the current event, the events the host has queued, the events it then repeats for ever (free draws when there are none), the counter of free draws, and whether a first reset has happened (log 6, 7, 9, 10). -/
structure Env where
  inputs : Inputs
  present : Bool
  pending : List Event
  repeated : List Event
  draws : Nat
  hasReset : Bool
deriving DecidableEq, Repr

/-- The memory `MEM` (R29, R60): the bytes that differ from the reset contents, by rising address. -/
abbrev Memory := List Host.Cell

/-- The framebuffer `FB[r][c]`, 32 rows of 64 columns, true meaning set (R28). -/
abbrev FrameBuffer := Vector (Vector Bool 64) 32

/-- Everything the spec gives the machine (R20 to R33), and the parameter the model takes as data (R9). -/
structure State where
  /-- V0 to VF; V[15] is the flag VF (R20, R21). -/
  v : Vector Byte 16
  /-- The address register I (R22). -/
  i : Word
  /-- The program counter: "12 bits hold it" (R23, log 11). -/
  pc : Addr
  /-- The call stack, its last element the top (R11, R24). -/
  stack : List Word
  /-- The delay timer DT (R25). -/
  dt : Byte
  /-- The sound timer ST (R26). -/
  st : Byte
  /-- The tone output register (R27). -/
  tone : Bool
  /-- The framebuffer FB (R28). -/
  fb : FrameBuffer
  /-- The memory MEM (R29). -/
  mem : Memory
  /-- The parameter `FONT_TABLE`, any 80 bytes: configuration that no event changes (R9, R18, R71, log 4). -/
  font : FontTable
  /-- The core status (R30). -/
  status : Status
  /-- The fault record (R31). -/
  fault : Option FaultRecord
  /-- The output `dt_status` (R33): the result of the latest operation on DT (log 9). -/
  dtStatus : TimerStatus
  /-- The output `st_status` (R33): the result of the latest operation on ST (log 9). -/
  stStatus : TimerStatus
  /-- The boundary to the host (R33). -/
  env : Env
deriving DecidableEq, Repr

/-- Inputs before any event has presented some: no step reads them (DESIGN CHOICE, log 7). -/
def Inputs.absent : Inputs := { keys := 0, rand := 0, keyPick := 0 }

/-- The boundary right after the reset: no input presented, nothing queued or repeated, so that every event is a free draw (DESIGN CHOICE, log 6, 7, 9). -/
def Env.afterReset : Env :=
  { inputs := Inputs.absent, present := false, pending := [], repeated := [], draws := 0, hasReset := true }

/-- The state right after `reset` with an empty program (R36), the font table at its default (R71, log 4); a program is loaded by the event `reset(program)` (R280, log 13). -/
def State.reset : State :=
  { v := Vector.replicate 16 0
    i := 0
    pc := 512
    stack := []
    dt := 0
    st := 0
    tone := false
    fb := Vector.replicate 32 (Vector.replicate 64 false)
    mem := []
    font := defaultFontTable
    status := .running
    fault := none
    dtStatus := .stopped
    stStatus := .stopped
    env := Env.afterReset }

end Sys2Proof.Machine
end

