-- ==== Sys2Proof/Machine/Operands.lean ====
section
/-! DEFINITION. The operand forms (30_encoding.md R92, 42_index_and_memory.md R170): registers, the register block V0..Vx, the data address I + k, the keys presented. -/

namespace Sys2Proof.Machine

/-- `V[r]` (R11, R20). -/
def State.reg (s : State) (r : RegIx) : Byte := s.v[r]

/-- `V[r] <- b` (R11, R20): no register is hard-wired. -/
def State.setReg (s : State) (r : RegIx) (b : Byte) : State := { s with v := s.v.set r b }

/-- `zext_16(nnn)` (R92, R171). -/
def zext16 (nnn : Addr) : Word := nnn.setWidth 16

/-- The address of the k-th byte an instruction touches: `I + k` as a natural number, with no wrap (R61, R170, D33). -/
def State.dataAddr (s : State) (k : Nat) : Nat := s.i.toNat + k

/-- The indices of the sixteen registers, in rising order. -/
def allRegs : List RegIx := [0, 1, 2, 3, 4, 5, 6, 7, 8, 9, 10, 11, 12, 13, 14, 15]

/-- The block V0..Vx that STM and LDM move, lowest register first (R175, R176). -/
def regsUpTo (x : RegIx) : List RegIx := allRegs.filter (fun k => k ≤ x)

/-- The set P of the keys pressed, by rising index (R234). -/
def Inputs.pressed (inp : Inputs) : List Nat := (List.range 16).filter (fun k => inp.keys.getLsbD k)

/-- The key the external keypad reports: any pressed key (`KEY_CHOICE`, R233, R234, log 8); none when no key is pressed. -/
def Inputs.anyKey (inp : Inputs) : Option Nat := inp.pressed[inp.keyPick % inp.pressed.length]?

end Sys2Proof.Machine
end

