-- ==== Sys2Proof/Machine/Flags.lean ====
section
/-! DEFINITION. The reported bits of the arithmetic (41_register_alu.md R140, R154; 42_index_and_memory.md R172) and the write of VF (10_state.md R21, R141). -/

namespace Sys2Proof.Machine

/-- Carry of `a + b`: 1 when the exact sum exceeds 255 (R140). -/
def carryOut (a b : Byte) : Bool := decide (a.toNat + b.toNat > 255)

/-- No-borrow of `a - b`: 1 when `a >= b`, the inverted convention (R140). -/
def noBorrow (a b : Byte) : Bool := decide (a.toNat ≥ b.toNat)

/-- The bit a right shift puts out, `a[0]` (R140). -/
def shiftedOutRight (a : Byte) : Bool := a.getLsbD 0

/-- The bit a left shift puts out, `a[7]` (R140). -/
def shiftedOutLeft (a : Byte) : Bool := a.getLsbD 7

/-- Overflow of the 16-bit add on I: 1 when the exact sum exceeds 65535 (R172). -/
def overflow16 (i : Word) (b : Byte) : Bool := decide (i.toNat + b.toNat > 65535)

/-- The index of VF (R21). -/
def vf : RegIx := 15

/-- `V[15] <- flag`, the flag as 0 or 1 in all 8 bits (R21). -/
def State.setFlag (s : State) (flag : Bool) : State := s.setReg vf (bitByte flag)

/-- The result register is written first and VF second, so on `x = 15` the flag remains (R21, R141). -/
def State.setResultFlag (s : State) (x : RegIx) (result : Byte) (flag : Bool) : State :=
  (s.setReg x result).setFlag flag

end Sys2Proof.Machine
end

