-- ==== Sys2Proof/Machine/Ops.lean ====
section
/-! DEFINITION. The named operations the meanings share: memory, taking a fault, program counter, stack, timers and tone, framebuffer, key poll, fetch, program load. -/

namespace Sys2Proof.Machine

/-- What a meaning answers. -/
abbrev Result := Host.Outcome State Fault Refusal

/-! Memory (20_memory.md R60 to R63). -/

/-- The canonical form: addresses strictly rising, all in [0,4096), no entry equal to what an unlisted address reads as. -/
abbrev Memory.wf (font : FontTable) (m : Memory) : Prop :=
  m.Pairwise (fun c d => c.1 < d.1) ∧ ∀ c ∈ m, c.1 < Config.memSize ∧ c.2 ≠ resetByte font c.1

/-- `MEM[a]` (R11). -/
def Memory.read (font : FontTable) : Memory → Nat → Byte
  | [], a => resetByte font a
  | c :: m, a => if a = c.1 then c.2 else Memory.read font m a

/-- The memory with `a` listed as `b`, in its place by address. -/
def Memory.insert : Memory → Nat → Byte → Memory
  | [], a, b => [(a, b)]
  | c :: m, a, b =>
    if a < c.1 then (a, b) :: c :: m
    else if a = c.1 then (a, b) :: m
    else c :: Memory.insert m a b

/-- `MEM[a] <- b` (R63): a byte equal to the reset contents is not listed. -/
def Memory.write (font : FontTable) (m : Memory) (a : Nat) (b : Byte) : Memory :=
  if b = resetByte font a then m.filter (fun c => c.1 ≠ a) else Memory.insert m a b

/-- Consecutive bytes written from an address on (R82, "copies bytes starting at offset 512"). -/
def Memory.writeBytes (font : FontTable) : Memory → Nat → List Byte → Memory
  | m, _, [] => m
  | m, a, b :: bs => Memory.writeBytes font (Memory.write font m a b) (a + 1) bs

/-- `MEM[a]` of a state. -/
def State.byte (s : State) (a : Nat) : Byte := Memory.read s.font s.mem a

/-- `MEM[a] <- b` in a state. -/
def State.setByte (s : State) (a : Nat) (b : Byte) : State := { s with mem := Memory.write s.font s.mem a b }

/-- `MemRead(a, 1)` (R62). -/
def memRead (a : Nat) (s : State) : Except Fault Byte :=
  if a ≥ Config.memSize then .error .outOfBounds else .ok (s.byte a)

/-- `MemWrite(a, 1, b)` (R63). -/
def memWrite (a : Nat) (b : Byte) (s : State) : Except Fault State :=
  if a ≥ Config.memSize then .error .outOfBounds else .ok (s.setByte a b)

/-! Taking a fault (00_scope.md R12, 60_exceptions.md R242, R243). -/

/-- The numeric code of a fault kind (R240, decision D21). -/
def Fault.code : Fault → Nat
  | .decodeError => 1
  | .outOfBounds => 2
  | .stackOverflow => 3
  | .stackUnderflow => 4
  | .programTooLarge => 5
  | .unsupportedInstruction => 6

/-- `fault <- record; status <- Halted`; nothing else changes (R243 steps 3 and 4). -/
def halt (record : FaultRecord) (s : State) : State :=
  { s with fault := some record, status := .halted }

/-- The fault record of a decode-stage or execute-stage fault: the fetch has completed, so the instruction's first byte is at `pc - 2` and the two bytes fetched are those in memory there (R242, log 2). -/
def State.executeRecord (s : State) (k : Fault) : FaultRecord :=
  { kind := k
    pc0 := s.pc - 2
    msb := some (s.byte (s.pc - 2).toNat)
    lsb := some (s.byte ((s.pc - 2).toNat + 1)) }

/-- The fault record of a fetch-stage fault: no bytes (R120, R242). -/
def State.fetchRecord (s : State) (k : Fault) : FaultRecord :=
  { kind := k, pc0 := s.pc, msb := none, lsb := none }

/-- `raise k` in the decode or execute stage: `pc` is left at `pc0 + 2` (R243 step 2). -/
def raise (k : Fault) (s : State) : State := halt (s.executeRecord k) s

/-- The state at the end of an execute stage begun in `s`: its result, or `raise k` in `s` itself, every write of the stage discarded (R12, R243 step 1). -/
def finish (s : State) : Except Fault State → State
  | .ok t => t
  | .error k => raise k s

/-- An execute stage always ends in a next state: its result, or the halt (R243). -/
def commit (s : State) (r : Except Fault State) : Result := .next (finish s r)

/-! Program counter (40_cycle_and_control_flow.md R121 to R123). -/

/-- `Advance(k)` (R121). -/
def advance (k : Nat) (s : State) : Except Fault State :=
  if s.pc.toNat + k ≥ Config.memSize then .error .outOfBounds
  else .ok { s with pc := BitVec.ofNat 12 (s.pc.toNat + k) }

/-- `Jump(a)` (R122). -/
def jump (a : Nat) (s : State) : Except Fault State :=
  if a ≥ Config.memSize then .error .outOfBounds else .ok { s with pc := BitVec.ofNat 12 a }

/-- `Skip()` (R123). -/
def skip (s : State) : Except Fault State := advance 2 s

/-- A conditional skip (R131 to R134). -/
def skipIf (c : Bool) (s : State) : Except Fault State := if c then skip s else .ok s

/-! Call stack (R124, R125). -/

/-- `Push(a)` (R124). -/
def push (a : Word) (s : State) : Except Fault State :=
  if s.stack.length ≥ Config.stackDepth then .error .stackOverflow
  else .ok { s with stack := s.stack ++ [a] }

/-- `Pop()` (R125): the top entry, and the state without it. -/
def pop (s : State) : Except Fault (Word × State) :=
  match s.stack.getLast? with
  | none => .error .stackUnderflow
  | some a => .ok (a, { s with stack := s.stack.dropLast })

/-! Timers and tone (44_timers.md R211, R212, R214). -/

/-- The status of `TimerSet` by the previous and the new value (R211). -/
def setStatus (prev new : Byte) : TimerStatus :=
  if prev = 0 then (if new = 0 then .stopped else .started)
  else (if new = 0 then .ended else .running)

/-- `TimerTick(t)` (R212): the new value. -/
def tickValue (t : Byte) : Byte := if t = 0 then 0 else t - 1

/-- `TimerTick(t)` (R212): the status. -/
def tickStatus (t : Byte) : TimerStatus :=
  if t = 0 then .stopped else if t - 1 = 0 then .ended else .running

/-- `ToneUpdate(status)` (R214). -/
def toneUpdate (status : TimerStatus) (tone : Bool) : Bool :=
  match status with
  | .started => true
  | .ended => false
  | .running => tone
  | .stopped => tone

/-- `dt_status <- TimerSet(DT, b)` (R217). -/
def setDelay (b : Byte) (s : State) : State :=
  { s with dt := b, dtStatus := setStatus s.dt b }

/-- `st_status <- TimerSet(ST, b); ToneUpdate(st_status)` (R218). -/
def setSound (b : Byte) (s : State) : State :=
  { s with st := b, stStatus := setStatus s.st b, tone := toneUpdate (setStatus s.st b) s.tone }

/-- Both timers tick (R213). -/
def tickTimers (s : State) : State :=
  { s with
    dt := tickValue s.dt
    dtStatus := tickStatus s.dt
    st := tickValue s.st
    stStatus := tickStatus s.st
    tone := toneUpdate (tickStatus s.st) s.tone }

/-! Framebuffer writer (43_display.md R190 to R194). -/

/-- The grid with every pixel clear (R192). -/
def clearGrid : FrameBuffer := Vector.replicate 32 (Vector.replicate 64 false)

/-- `FB[r][c]`, false outside the grid (R28; the bounds are checked by `xorPixel`). -/
def FrameBuffer.pixel (fb : FrameBuffer) (r c : Nat) : Bool :=
  if h : r < 32 ∧ c < 64 then (fb[r]'h.1)[c]'h.2 else false

/-- `FB[r][c] <- b`; nothing outside the grid. -/
def FrameBuffer.setPixel (fb : FrameBuffer) (r c : Nat) (b : Bool) : FrameBuffer :=
  if h : r < 32 ∧ c < 64 then fb.set r ((fb[r]'h.1).set c b h.2) h.1 else fb

/-- `XorPixel(r, c)` (R191): the old bit and the new grid. -/
def xorPixel (r c : Nat) (fb : FrameBuffer) : Except Fault (Bool × FrameBuffer) :=
  if r ≥ Config.fbH ∨ c ≥ Config.fbW then .error .outOfBounds
  else .ok (FrameBuffer.pixel fb r c, FrameBuffer.setPixel fb r c (!FrameBuffer.pixel fb r c))

/-- Pixel `j` of a sprite row byte, 0 the leftmost: bit `b[7-j]` (R193; D7, PRESUMED by the spec from general knowledge; log 15). -/
def spritePixel (b : Byte) (j : Nat) : Bool := b.getLsbD (7 - j)

/-- The column of pixel `j`: `(V[x] + j) mod 64` (R193). -/
def spriteColumn (cx j : Nat) : Nat := (cx + j) % Config.fbW

/-- The pixels `js` of one sprite row, with the collision seen so far (R194, inner loop). -/
def drawPixels (row cx : Nat) (b : Byte) : List Nat → FrameBuffer × Bool → Except Fault (FrameBuffer × Bool)
  | [], g => .ok g
  | j :: js, g =>
    if spritePixel b j then
      (xorPixel row (spriteColumn cx j) g.1).bind
        (fun p => drawPixels row cx b js (p.2, g.2 || p.1))
    else drawPixels row cx b js g

/-- The sprite rows `rs`, row r being the byte at `base + r` drawn in framebuffer row `cy + r` (R194, outer loop). -/
def drawRows (mem : Nat → Byte) (base cx cy : Nat) : List Nat → FrameBuffer × Bool → Except Fault (FrameBuffer × Bool)
  | [], g => .ok g
  | r :: rs, g =>
    (drawPixels (cy + r) cx (mem (base + r)) (List.range Config.spriteW) g).bind
      (drawRows mem base cx cy rs)

/-- The check stage of DRW (R194): a sprite byte outside memory, or a sprite row below the grid. -/
def spriteFits (base cy n : Nat) : Bool :=
  n = 0 || (decide (base + (n - 1) < Config.memSize) && decide (cy + (n - 1) < Config.fbH))

/-- `emit present` (R196). -/
def State.emitPresent (s : State) : State := { s with env := { s.env with present := true } }

/-! Register block transfers (42_index_and_memory.md R175, R176). -/

/-- `MemWrite(I + k, 1, V[k])` for each register of the list (R175). -/
def storeRegs : List RegIx → State → Except Fault State
  | [], s => .ok s
  | k :: ks, s => (memWrite (s.dataAddr k) (s.reg k) s).bind (storeRegs ks)

/-- `V[k] <- MemRead(I + k, 1)` for each register of the list (R176). -/
def loadRegs : List RegIx → State → Except Fault State
  | [], s => .ok s
  | k :: ks, s => (memRead (s.dataAddr k) s).bind (fun b => loadRegs ks (s.setReg k b))

/-! Keypad (45_keypad.md R231 to R234). -/

/-- `keys[k]` for a key index; an index of 16 or more is out of bounds (R231, D15). -/
def keyLine (k : Nat) (s : State) : Except Fault Bool :=
  if k ≥ Config.nkeys then .error .outOfBounds else .ok (s.env.inputs.keys.getLsbD k)

/-- `KeyPoll(x)` (R234). -/
def keyPoll (x : RegIx) (s : State) : State :=
  match s.env.inputs.anyKey with
  | none => { s with status := .waitKey x }
  | some k => { s.setReg x (BitVec.ofNat 8 k) with status := .running }

/-! The fetch stage (40_cycle_and_control_flow.md R120). -/

/-- The instruction bytes at `pc` and the state with `pc` advanced by 2, or none when `pc >= 4094`: the odd address 4093 is fetched from (DEDUCED, log 21). -/
def fetch (s : State) : Option (Byte × Byte × State) :=
  if s.pc.toNat ≥ 4094 then none
  else some (s.byte s.pc.toNat, s.byte (s.pc.toNat + 1), { s with pc := BitVec.ofNat 12 (s.pc.toNat + 2) })

/-! Reset and program load (20_memory.md R82, 70_reset_and_hazards.md R280, R281). -/

/-- `LoadProgram(bytes)` (R82). -/
def loadProgram (program : List Byte) (s : State) : Except Fault State :=
  if program.length > Config.progMax then .error .programTooLarge
  else .ok { s with mem := Memory.writeBytes s.font s.mem Config.progBase program }

/-- The record of a failed load: `pc0` is 512 and there are no bytes (R31, R280). -/
def loadRecord (k : Fault) : FaultRecord := { kind := k, pc0 := 512, msb := none, lsb := none }

/-- `reset(program)` (R280): the block's state after it; the parameter FONT_TABLE stays as it is (R18), and the boundary keeps what the host has queued (log 20). -/
def resetEvent (program : List Byte) (s : State) : State :=
  let fresh := { State.reset with font := s.font, env := { s.env with hasReset := true } }
  match loadProgram program fresh with
  | .ok t => t
  | .error k => halt (loadRecord k) fresh

end Sys2Proof.Machine
end

