-- ==== Sys2Proof/Machine/ControlFlow.lean ====
section
/-! DEFINITION. The control-transfer instructions (40_cycle_and_control_flow.md R126 to R134). In a meaning `pc` is already `pc0 + 2` (R23). -/

namespace Sys2Proof.Machine

/-- RET (R126). -/
def execRet (s : State) : Result := commit s ((pop s).bind (fun p => jump p.1.toNat p.2))

/-- SYS (R127): always raises UnsupportedInstruction. -/
def execSys (s : State) : Result := commit s (.error .unsupportedInstruction)

/-- JMP (R128). -/
def execJmp (nnn : Addr) (s : State) : Result := commit s (jump nnn.toNat s)

/-- CALL (R129): pushes `pc`, the address after the CALL, full width. -/
def execCall (nnn : Addr) (s : State) : Result :=
  commit s ((push (zext16 s.pc) s).bind (jump nnn.toNat))

/-- JMPV (R130): the sum is not truncated. -/
def execJmpv (nnn : Addr) (s : State) : Result :=
  commit s (jump (nnn.toNat + (s.reg 0).toNat) s)

/-- SKEI (R131). -/
def execSkei (x : RegIx) (nn : Byte) (s : State) : Result := commit s (skipIf (s.reg x == nn) s)

/-- SKNI (R132). -/
def execSkni (x : RegIx) (nn : Byte) (s : State) : Result := commit s (skipIf (s.reg x != nn) s)

/-- SKER (R133). -/
def execSker (x y : RegIx) (s : State) : Result := commit s (skipIf (s.reg x == s.reg y) s)

/-- SKNR (R134). -/
def execSknr (x y : RegIx) (s : State) : Result := commit s (skipIf (s.reg x != s.reg y) s)

end Sys2Proof.Machine
end

