-- ==== Sys2Proof/Machine/Display.lean ====
section
/-! DEFINITION. The display instructions (43_display.md R192 to R196). -/

namespace Sys2Proof.Machine

/-- CLS (R192). -/
def execCls (s : State) : Result := .next { s with fb := clearGrid }.emitPresent

/-- DRW (R194): the coordinates are read first, the check stage writes nothing, VF is written last. -/
def execDrw (x y : RegIx) (n : BitVec 4) (s : State) : Result :=
  commit s <|
    if spriteFits s.i.toNat (s.reg y).toNat n.toNat then
      (drawRows s.byte s.i.toNat (s.reg x).toNat (s.reg y).toNat (List.range n.toNat) (s.fb, false)).map
        fun g => ({ s with fb := g.1 }.setFlag g.2).emitPresent
    else .error .outOfBounds

end Sys2Proof.Machine
end

