-- ==== Sys2Proof/Machine/IndexMemory.lean ====
section
/-! DEFINITION. Address-register and memory load/store instructions (42_index_and_memory.md R170 to R176). I is never modified by a load or store (R170). -/

namespace Sys2Proof.Machine

/-- LDI (R171). -/
def execLdi (nnn : Addr) (s : State) : Result := .next { s with i := zext16 nnn }

/-- ADI (R172) under a value of the parameter FX1E_SETS_VF: I is written first, then VF if the parameter is true. -/
def addToI (setsVF : Bool) (x : RegIx) (s : State) : State :=
  let t := { s with i := BitVec.ofNat 16 (s.i.toNat + (s.reg x).toNat) }
  if setsVF then t.setFlag (overflow16 s.i (s.reg x)) else t

/-- ADI (R172), the parameter left open (D36, log 5). -/
def execAdi (x : RegIx) (s : State) : Result := .next (addToI Config.fx1eSetsVF x s)

/-- FNT (R173): `5 * V[x]` for the whole 8-bit value (D16). -/
def execFnt (x : RegIx) (s : State) : Result :=
  .next { s with i := BitVec.ofNat 16 (Config.glyphBytes * (s.reg x).toNat) }

/-- The decimal digits of a byte: hundreds, tens, units (R174). -/
def hundreds (b : Byte) : Byte := BitVec.ofNat 8 (b.toNat / 100)
def tens (b : Byte) : Byte := BitVec.ofNat 8 (b.toNat / 10 % 10)
def units (b : Byte) : Byte := BitVec.ofNat 8 (b.toNat % 10)

/-- BCD (R174): the range is checked before any write. -/
def execBcd (x : RegIx) (s : State) : Result :=
  commit s <|
    if s.dataAddr 2 ≥ Config.memSize then .error .outOfBounds
    else
      (memWrite (s.dataAddr 0) (hundreds (s.reg x)) s).bind fun s1 =>
      (memWrite (s.dataAddr 1) (tens (s.reg x)) s1).bind fun s2 =>
      memWrite (s.dataAddr 2) (units (s.reg x)) s2

/-- STM (R175): the range is checked before any write. -/
def execStm (x : RegIx) (s : State) : Result :=
  commit s <|
    if s.dataAddr x ≥ Config.memSize then .error .outOfBounds else storeRegs (regsUpTo x) s

/-- LDM (R176): the range is checked before any write. -/
def execLdm (x : RegIx) (s : State) : Result :=
  commit s <|
    if s.dataAddr x ≥ Config.memSize then .error .outOfBounds else loadRegs (regsUpTo x) s

end Sys2Proof.Machine
end

