-- ==== Sys2Proof/Machine/Keypad.lean ====
section
/-! DEFINITION. The keypad instructions (45_keypad.md R231 to R234). -/

namespace Sys2Proof.Machine

/-- SKP (R231): the whole 8-bit V[x] is the key index. -/
def execSkp (x : RegIx) (s : State) : Result :=
  commit s ((keyLine (s.reg x).toNat s).bind (fun pressed => skipIf pressed s))

/-- SKNP (R232). -/
def execSknp (x : RegIx) (s : State) : Result :=
  commit s ((keyLine (s.reg x).toNat s).bind (fun pressed => skipIf (!pressed) s))

/-- KEY (R233): the wait is level-sensitive. -/
def execKey (x : RegIx) (s : State) : Result := .next (keyPoll x s)

end Sys2Proof.Machine
end

