-- ==== Sys2Proof/Machine/RegisterAlu.lean ====
section
/-! DEFINITION. Register move, arithmetic, logic, shift and random instructions (41_register_alu.md R140 to R154). None can fault. -/

namespace Sys2Proof.Machine

/-- MOV (R142). -/
def execMov (x : RegIx) (nn : Byte) (s : State) : Result := .next (s.setReg x nn)

/-- ADDI (R143): wraps, VF not written. -/
def execAddi (x : RegIx) (nn : Byte) (s : State) : Result := .next (s.setReg x (s.reg x + nn))

/-- CPY (R144). -/
def execCpy (x y : RegIx) (s : State) : Result := .next (s.setReg x (s.reg y))

/-- OR (R145). -/
def execOr (x y : RegIx) (s : State) : Result := .next (s.setReg x (s.reg x ||| s.reg y))

/-- AND (R146). -/
def execAnd (x y : RegIx) (s : State) : Result := .next (s.setReg x (s.reg x &&& s.reg y))

/-- XOR (R147). -/
def execXor (x y : RegIx) (s : State) : Result := .next (s.setReg x (s.reg x ^^^ s.reg y))

/-- ADD (R148). -/
def execAdd (x y : RegIx) (s : State) : Result :=
  .next (s.setResultFlag x (s.reg x + s.reg y) (carryOut (s.reg x) (s.reg y)))

/-- SUB (R149). -/
def execSub (x y : RegIx) (s : State) : Result :=
  .next (s.setResultFlag x (s.reg x - s.reg y) (noBorrow (s.reg x) (s.reg y)))

/-- RSB (R151). -/
def execRsb (x y : RegIx) (s : State) : Result :=
  .next (s.setResultFlag x (s.reg y - s.reg x) (noBorrow (s.reg y) (s.reg x)))

/-- SHR (R150): on V[x] alone. -/
def execShr (x : RegIx) (s : State) : Result :=
  .next (s.setResultFlag x (s.reg x >>> 1) (shiftedOutRight (s.reg x)))

/-- SHL (R152): on V[x] alone. -/
def execShl (x : RegIx) (s : State) : Result :=
  .next (s.setResultFlag x (s.reg x <<< 1) (shiftedOutLeft (s.reg x)))

/-- RND (R153): the byte on `rand` in this cycle, under no law. -/
def execRnd (x : RegIx) (nn : Byte) (s : State) : Result := .next (s.setReg x (s.env.inputs.rand &&& nn))

end Sys2Proof.Machine
end

