-- ==== Sys2Proof/Machine/Timers.lean ====
section
/-! DEFINITION. The timer instructions (44_timers.md R216 to R218). -/

namespace Sys2Proof.Machine

/-- GDT (R216): no lifecycle status is produced. -/
def execGdt (x : RegIx) (s : State) : Result := .next (s.setReg x s.dt)

/-- SDT (R217). -/
def execSdt (x : RegIx) (s : State) : Result := .next (setDelay (s.reg x) s)

/-- SST (R218). -/
def execSst (x : RegIx) (s : State) : Result := .next (setSound (s.reg x) s)

end Sys2Proof.Machine
end

