-- ==== Sys2Proof/Machine/Dispatch.lean ====
section
/-! DEFINITION. The execute stage (40_cycle_and_control_flow.md R120): one arm per instruction, one meaning per arm. -/

namespace Sys2Proof.Machine

/-- `Execute(d)` (R120). -/
def exec (i : Instr) (s : State) : Host.Outcome State Fault Refusal :=
  match i with
  | .cls => Sys2Proof.Machine.execCls s
  | .ret => Sys2Proof.Machine.execRet s
  | .sys _ => Sys2Proof.Machine.execSys s
  | .jmp nnn => Sys2Proof.Machine.execJmp nnn s
  | .call nnn => Sys2Proof.Machine.execCall nnn s
  | .skei x nn => Sys2Proof.Machine.execSkei x nn s
  | .skni x nn => Sys2Proof.Machine.execSkni x nn s
  | .sker x y => Sys2Proof.Machine.execSker x y s
  | .mov x nn => Sys2Proof.Machine.execMov x nn s
  | .addi x nn => Sys2Proof.Machine.execAddi x nn s
  | .cpy x y => Sys2Proof.Machine.execCpy x y s
  | .or x y => Sys2Proof.Machine.execOr x y s
  | .and x y => Sys2Proof.Machine.execAnd x y s
  | .xor x y => Sys2Proof.Machine.execXor x y s
  | .add x y => Sys2Proof.Machine.execAdd x y s
  | .sub x y => Sys2Proof.Machine.execSub x y s
  | .shr x _ => Sys2Proof.Machine.execShr x s
  | .rsb x y => Sys2Proof.Machine.execRsb x y s
  | .shl x _ => Sys2Proof.Machine.execShl x s
  | .sknr x y => Sys2Proof.Machine.execSknr x y s
  | .ldi nnn => Sys2Proof.Machine.execLdi nnn s
  | .jmpv nnn => Sys2Proof.Machine.execJmpv nnn s
  | .rnd x nn => Sys2Proof.Machine.execRnd x nn s
  | .drw x y n => Sys2Proof.Machine.execDrw x y n s
  | .skp x => Sys2Proof.Machine.execSkp x s
  | .sknp x => Sys2Proof.Machine.execSknp x s
  | .gdt x => Sys2Proof.Machine.execGdt x s
  | .key x => Sys2Proof.Machine.execKey x s
  | .sdt x => Sys2Proof.Machine.execSdt x s
  | .sst x => Sys2Proof.Machine.execSst x s
  | .adi x => Sys2Proof.Machine.execAdi x s
  | .fnt x => Sys2Proof.Machine.execFnt x s
  | .bcd x => Sys2Proof.Machine.execBcd x s
  | .stm x => Sys2Proof.Machine.execStm x s
  | .ldm x => Sys2Proof.Machine.execLdm x s

end Sys2Proof.Machine
end

