-- ==== Sys2Proof/Machine/Events.lean ====
section
/-! DEFINITION. The three events (10_state.md R34): `cpu_step` (40_cycle_and_control_flow.md R120), `timer_tick` (44_timers.md R213), `reset` (70_reset_and_hazards.md R280), and which of them comes next. -/

namespace Sys2Proof.Machine

/-- One fetch-decode-execute cycle in status `Running` (R120). -/
def cycle (s : State) : Result :=
  match fetch s with
  | none => .next (halt (s.fetchRecord .outOfBounds) s)
  | some (msb, lsb, s1) =>
    match decode msb lsb with
    | .error _ => .next (raise .decodeError s1)
    | .ok i => exec i s1

/-- `cpu_step` (R120): nothing in `Halted` (R246), a key poll in `WaitKey(x)` (R234), else a cycle. -/
def cpuStep (s : State) : Result :=
  match s.status with
  | .halted => .next s
  | .waitKey x => .next (keyPoll x s)
  | .running => cycle s

/-- `timer_tick` (R213): nothing in `Halted` (R246). -/
def timerTick (s : State) : State :=
  match s.status with
  | .halted => s
  | .waitKey _ => tickTimers s
  | .running => tickTimers s

/-- Inputs that no queued event names: draws under no law (R153, R230, log 7). -/
def freeInputs (n : Nat) : Inputs :=
  { keys := Config.keysDraw n, rand := Config.randDraw n, keyPick := Config.keyPickDraw n }

/-- An event that the host has not queued: a draw under no law over all three (R280, R286, D25, log 6). -/
def freeEvent (n : Nat) : Event :=
  match Config.resetDraw n with
  | some program => .reset program
  | none => if Config.tickDraw n then .timerTick else .cpuStep (freeInputs n)

/-- A further event begins: the last one's `present` pulse is over (log 9), and these stay queued. -/
def State.startEvent (s : State) (rest : List Event) : State :=
  { s with env := { s.env with present := false, pending := rest } }

/-- The next event and the state at its start: the first event queued; with none queued, the first of the repeated ones, the others then queued; with none to repeat, a free draw (R286, log 6). -/
def nextEvent (s : State) : Event × State :=
  match s.env.pending with
  | e :: rest => (e, s.startEvent rest)
  | [] =>
    match s.env.repeated with
    | e :: rest => (e, s.startEvent rest)
    | [] => (freeEvent s.env.draws, { s with env := { s.env with present := false, draws := s.env.draws + 1 } })

/-- The inputs presented during the event (R33). -/
def State.withInputs (s : State) (inp : Inputs) : State :=
  { s with env := { s.env with inputs := inp } }

/-- An event's effect; before the first reset only `reset` has one (R36, R280, log 10). -/
def runEvent (e : Event) (s : State) : Result :=
  match e with
  | .reset program => .next (resetEvent program s)
  | .cpuStep inp => if s.env.hasReset then cpuStep (s.withInputs inp) else .refused .beforeFirstReset
  | .timerTick => if s.env.hasReset then .next (timerTick s) else .refused .beforeFirstReset

end Sys2Proof.Machine
end

