-- ==== Sys2Proof/Machine/Step.lean ====
section
/-! DEFINITION. One step of the machine: the next event, atomically (00_scope.md R13, 70_reset_and_hazards.md R286). -/

namespace Sys2Proof.Machine

/-- One event (R13, R34). -/
def step (s : State) : Host.Outcome State Fault Refusal := runEvent (nextEvent s).1 (nextEvent s).2

/-- The state with an instruction word stored where the next fetch reads, so that the very next step runs it: the two bytes at `pc` (at 512 if nothing can be fetched at `pc`), status `Running`, one `cpu_step` with free inputs queued, a reset behind (log 13). -/
def State.withFetchWord (s : State) (nbits w : Nat) : State :=
  let word : Word := BitVec.ofNat 16 (w % 2 ^ nbits)
  let pc : Addr := if s.pc.toNat ≥ 4094 then 512 else s.pc
  { (s.setByte pc.toNat (msbOf word)).setByte (pc.toNat + 1) (lsbOf word) with
    pc := pc
    status := .running
    env := { s.env with
      pending := [.cpuStep (freeInputs s.env.draws)]
      draws := s.env.draws + 1
      hasReset := true } }

end Sys2Proof.Machine
end

