-- ==== Sys2Proof/Safety.lean ====
section
/-! DEFINITION. The terms the statements use: the parts of the state and frames, the halt a fault causes, when an instruction faults (60_exceptions.md R241), what it writes (10_state.md R37), the invariant of R35, what a run must not have reached (R246), and the fairness a run may be assumed to have (70_reset_and_hazards.md R287). -/

namespace Sys2Proof.Machine

/-- One part of the state (R20 to R33), for saying what an instruction leaves unchanged. -/
inductive Part where
  | reg (r : RegIx)
  | i
  | pc
  | stack
  | dt
  | st
  | tone
  | fb
  | mem
  | font
  | status
  | fault
  | dtStatus
  | stStatus
  | env
deriving DecidableEq, Repr

/-- The part has the same value in both states; memory through the read of every byte. -/
def Part.same : Part → State → State → Prop
  | .reg r, s, t => t.reg r = s.reg r
  | .i, s, t => t.i = s.i
  | .pc, s, t => t.pc = s.pc
  | .stack, s, t => t.stack = s.stack
  | .dt, s, t => t.dt = s.dt
  | .st, s, t => t.st = s.st
  | .tone, s, t => t.tone = s.tone
  | .fb, s, t => t.fb = s.fb
  | .mem, s, t => ∀ a : Nat, t.byte a = s.byte a
  | .font, s, t => t.font = s.font
  | .status, s, t => t.status = s.status
  | .fault, s, t => t.fault = s.fault
  | .dtStatus, s, t => t.dtStatus = s.dtStatus
  | .stStatus, s, t => t.stStatus = s.stStatus
  | .env, s, t => t.env = s.env

/-- Every part outside the list is unchanged from `s` to `t`. -/
def UnchangedExcept (ps : List Part) (s t : State) : Prop := ∀ p : Part, p ∉ ps → p.same s t

/-- Every byte of memory outside the `n` bytes from `base` on reads as before. -/
def SameMemoryOutside (base n : Nat) (s t : State) : Prop :=
  ∀ a : Nat, a < base ∨ base + n ≤ a → t.byte a = s.byte a

/-- What the byte at `a` is after the three stores of BCD in `s`: a decimal digit of V[x], or the byte as it was (R174). -/
def byteAfterBcd (x : RegIx) (s : State) (a : Nat) : Byte :=
  if a = s.dataAddr 0 then BitVec.ofNat 8 ((s.reg x).toNat / 100)
  else if a = s.dataAddr 1 then BitVec.ofNat 8 ((s.reg x).toNat / 10 % 10)
  else if a = s.dataAddr 2 then BitVec.ofNat 8 ((s.reg x).toNat % 10)
  else s.byte a

/-- What the byte at `a` is after the stores of STM in `s`: the register V[a - I], or the byte as it was (R175). -/
def byteAfterStm (x : RegIx) (s : State) (a : Nat) : Byte :=
  if h : s.dataAddr 0 ≤ a ∧ a - s.dataAddr 0 ≤ x.val then s.reg ⟨a - s.dataAddr 0, by omega⟩ else s.byte a

/-- The state after the fault `k` in an execute stage begun in `s`: halted, the record written with the address and the two bytes of the faulting instruction, all else as in `s` (R242, R243, R244). -/
def haltedBy (k : Fault) (s : State) : State :=
  { s with
    status := .halted
    fault := some
      { kind := k
        pc0 := s.pc - 2
        msb := some (s.byte (s.pc - 2).toNat)
        lsb := some (s.byte ((s.pc - 2).toNat + 1)) } }

/-- An instruction that skips when `c` holds (R123, R131 to R134): `pc` advances by 2 more, or the skip leaves memory and faults, or nothing happens. -/
def SkipsWhen (c : Prop) (i : Instr) (s : State) : Prop :=
  (c → s.pc.toNat + 2 < 4096 → exec i s = .next { s with pc := s.pc + 2 }) ∧
  (c → 4096 ≤ s.pc.toNat + 2 → exec i s = .next (haltedBy .outOfBounds s)) ∧
  (¬c → exec i s = .next s)

/-- The skip of a skip instruction would be taken and would leave memory (R241 row 2). -/
def skipFault (c : Bool) (s : State) : Option Fault :=
  if c && decide (4096 ≤ s.pc.toNat + 2) then some .outOfBounds else none

/-- `OutOfBounds` when the condition holds. -/
def boundsFault (c : Bool) : Option Fault := if c then some .outOfBounds else none

/-- The fault of an execute stage, read off the list of R240 and R241 (RET's `Jump` never faults, R126). -/
def executeFault : Instr → State → Option Fault
  | .ret, s => if s.stack.length = 0 then some .stackUnderflow else none
  | .sys _, _ => some .unsupportedInstruction
  | .call _, s => if s.stack.length = 64 then some .stackOverflow else none
  | .jmpv nnn, s => boundsFault (decide (4096 ≤ nnn.toNat + (s.reg 0).toNat))
  | .skei x nn, s => skipFault (decide (s.reg x = nn)) s
  | .skni x nn, s => skipFault (decide (s.reg x ≠ nn)) s
  | .sker x y, s => skipFault (decide (s.reg x = s.reg y)) s
  | .sknr x y, s => skipFault (decide (s.reg x ≠ s.reg y)) s
  | .skp x, s =>
    if 16 ≤ (s.reg x).toNat then some .outOfBounds
    else skipFault (s.env.inputs.keys.getLsbD (s.reg x).toNat) s
  | .sknp x, s =>
    if 16 ≤ (s.reg x).toNat then some .outOfBounds
    else skipFault (!s.env.inputs.keys.getLsbD (s.reg x).toNat) s
  | .bcd _, s => boundsFault (decide (4096 ≤ s.i.toNat + 2))
  | .stm x, s => boundsFault (decide (4096 ≤ s.i.toNat + x))
  | .ldm x, s => boundsFault (decide (4096 ≤ s.i.toNat + x))
  | .drw _ y n, s =>
    boundsFault (decide (1 ≤ n.toNat) &&
      (decide (4096 ≤ s.i.toNat + n.toNat - 1) || decide (32 ≤ (s.reg y).toNat + n.toNat - 1)))
  | .cls, _ | .jmp _, _ | .ldi _, _ => none
  | .mov _ _, _ | .addi _ _, _ | .rnd _ _, _ => none
  | .cpy _ _, _ | .or _ _, _ | .and _ _, _ | .xor _ _, _ => none
  | .add _ _, _ | .sub _ _, _ | .rsb _ _, _ | .shr _ _, _ | .shl _ _, _ => none
  | .gdt _, _ | .key _, _ | .sdt _, _ | .sst _, _ | .adi _, _ | .fnt _, _ => none

/-- The columns marked "w" in an instruction's row of the access matrix (R37): SDT and SST write their status output with the timer (R217, R218), CLS and DRW emit `present` (R196, part of `env`), KEY writes `status` (R234). -/
def writtenParts : Instr → List Part
  | .cls => [.fb, .env]
  | .ret => [.pc, .stack]
  | .sys _ => []
  | .jmp _ => [.pc]
  | .call _ => [.pc, .stack]
  | .skei _ _ | .skni _ _ | .sker _ _ | .sknr _ _ => [.pc]
  | .mov x _ | .addi x _ | .rnd x _ => [.reg x]
  | .cpy x _ | .or x _ | .and x _ | .xor x _ => [.reg x]
  | .add x _ | .sub x _ | .rsb x _ | .shr x _ | .shl x _ => [.reg x, .reg vf]
  | .ldi _ => [.i]
  | .jmpv _ => [.pc]
  | .drw _ _ _ => [.reg vf, .fb, .env]
  | .skp _ | .sknp _ => [.pc]
  | .gdt x => [.reg x]
  | .key x => [.reg x, .status]
  | .sdt _ => [.dt, .dtStatus]
  | .sst _ => [.st, .tone, .stStatus]
  | .adi _ => if Config.fx1eSetsVF then [.i, .reg vf] else [.i]
  | .fnt _ => [.i]
  | .bcd _ | .stm _ => [.mem]
  | .ldm x => (regsUpTo x).map .reg

/-- The instruction samples `keys` or `rand` (R37, column inputs; R230). -/
def samplesInputs : Instr → Bool
  | .rnd _ _ | .skp _ | .sknp _ | .key _ => true
  | .cls | .ret | .sys _ | .jmp _ | .call _ | .ldi _ | .jmpv _ => false
  | .skei _ _ | .skni _ _ | .mov _ _ | .addi _ _ => false
  | .sker _ _ | .sknr _ _ | .cpy _ _ | .or _ _ | .and _ _ | .xor _ _ => false
  | .add _ _ | .sub _ _ | .rsb _ _ | .shr _ _ | .shl _ _ => false
  | .drw _ _ _ => false
  | .gdt _ | .sdt _ | .sst _ | .adi _ | .fnt _ | .bcd _ | .stm _ | .ldm _ => false

/-- The sprite of DRW puts a set bit on the pixel (r, c): sprite row k lands on row `V[y] + k`, pixel j on column `(V[x] + j) mod 64`, and the bit is bit 7 - j of the byte at `I + k` (R193). -/
def SpriteCovers (x y : RegIx) (n : BitVec 4) (s : State) (r c : Nat) : Prop :=
  ∃ k j : Nat, k < n.toNat ∧ j < 8 ∧ r = (s.reg y).toNat + k ∧ c = ((s.reg x).toNat + j) % 64 ∧
    (s.byte (s.i.toNat + k)).getLsbD (7 - j) = true

/-- What holds after every event (R35), with the canonical form of memory and the meaning of the record (R31: a record is present exactly in `Halted`, R36 and R243). -/
structure State.Inv (s : State) : Prop where
  memory_canonical : Memory.wf s.font s.mem
  pc_in_memory : s.pc.toNat < 4096
  stack_depth : s.stack.length ≤ 64
  stack_entries : ∀ a ∈ s.stack, 2 ≤ a.toNat ∧ a.toNat ≤ 4095
  tone_gates_sound : s.tone = decide (s.st ≠ 0)
  record_iff_halted : s.status = .halted ↔ s.fault.isSome = true

/-- An event other than `reset` (R34). -/
def Event.keepsRunning : Event → Bool
  | .reset _ => false
  | .cpuStep _ => true
  | .timerTick => true

/-- An event that leaves a key wait in place: a tick, or a `cpu_step` with no key pressed (R234). -/
def Event.pressesNoKey : Event → Bool
  | .reset _ => false
  | .cpuStep inp => inp.keys == 0
  | .timerTick => true

/-- `k` steps, stopping at a step that answers no next state. -/
def run : Nat → State → Result
  | 0, s => .next s
  | k + 1, s =>
    match step s with
    | .next t => run k t
    | .fault f => .fault f
    | .refused r => .refused r

/-- The event that the next step takes. -/
def State.nextIs (s : State) (e : Event) : Prop := (nextEvent s).1 = e

/-- A run without end: every state steps to the one after it. -/
def IsRun (σ : Nat → State) : Prop := ∀ n, step (σ n) = .next (σ (n + 1))

/-- An assumption on the host, and no property of the block (R287): ticks keep arriving. -/
def TicksKeepArriving (σ : Nat → State) : Prop := ∀ n, ∃ m, n ≤ m ∧ (σ m).nextIs .timerTick

/-- An assumption on the host (R287): `cpu_step` events keep arriving. -/
def CyclesKeepArriving (σ : Nat → State) : Prop := ∀ n, ∃ m inp, n ≤ m ∧ (σ m).nextIs (.cpuStep inp)

/-- An assumption on the host (R287): a key is eventually pressed, and held, so that every later `cpu_step` finds one. -/
def AKeyIsEventuallyHeld (σ : Nat → State) : Prop :=
  ∃ n, ∀ m inp, n ≤ m → (σ m).nextIs (.cpuStep inp) → inp.keys ≠ 0

/-- No `reset` is issued during the run. -/
def NoReset (σ : Nat → State) : Prop := ∀ n, (nextEvent (σ n)).1.keepsRunning = true

/-- A `Halted` state is a fault state, never a successful end (R246): the runs claims are about have not reached one. -/
def State.Safe (s : State) : Prop := s.status ≠ .halted

end Sys2Proof.Machine
end

