-- ==== Sys2Proof/Certificates/Slice0/Obligations.lean ====
section
/-! DEFINITION. The statements for the provers, drawn from the spec's numbered rules. In a meaning `pc` is already `pc0 + 2` (R23); `haltedBy k s` is the halt of R243. -/

open Sys2Proof Sys2Proof.Machine

/-! Encoding (30_encoding.md). -/

/-- One word of each family, written out from the patterns of R96 (the words of 95_test_vectors.md S1), decodes to the instruction it stands for. -/
def Obligations.SpecWordsDecodeToTheirShapes : Prop :=
  decode 0x00 0xE0 = .ok .cls ∧ decode 0x00 0xEE = .ok .ret ∧ decode 0x01 0x23 = .ok (.sys 0x123) ∧
  decode 0x3A 0x42 = .ok (.skei 10 0x42) ∧ decode 0x89 0xA4 = .ok (.add 9 10) ∧
  decode 0x8D 0xE6 = .ok (.shr 13 14) ∧ decode 0xA2 0xF0 = .ok (.ldi 0x2F0) ∧
  decode 0xD0 0xA5 = .ok (.drw 0 10 5) ∧ decode 0xE6 0x9E = .ok (.skp 6) ∧
  decode 0xFA 0x15 = .ok (.sdt 10) ∧ decode 0xFE 0x55 = .ok (.stm 14)

/-- R100: assembling any well-formed instruction gives a word whose two bytes decode to that instruction with its fields. -/
def Obligations.DecodeOfEncodeIsTheInstruction : Prop :=
  ∀ i : Instr, i.wellFormed = true → decode (msbOf (encode i)) (lsbOf (encode i)) = .ok i

/-- The other direction of R100: two bytes that decode are the bytes of the decoded instruction's word, and only well-formed instructions are decoded. -/
def Obligations.EncodeOfDecodeIsTheWord : Prop :=
  ∀ (msb lsb : Byte) (i : Instr), decode msb lsb = .ok i → encode i = msb ++ lsb ∧ i.wellFormed = true

/-- R96: the decoded shape of a word is the row that its order of tests `(w & mask) == match` selects first, and there is none when no row selects the word. -/
def Obligations.DecodePartitionIsTheOpcodeTable : Prop :=
  ∀ w : Word,
    (decode (msbOf w) (lsbOf w)).toOption.map Instr.mnemonic =
      (opcodeRows.find? (fun r => r.selects w)).map OpcodeRow.mnemonic

/-- R97: the words that fail to decode are exactly those of its table, and the failure identifies the two bytes. [Rests on: that 5XYk and 9XYk are illegal is the spec's own decision D8.] -/
def Obligations.IllegalWordsAreExactlyThoseListed : Prop :=
  ∀ msb lsb : Byte,
    (decode msb lsb = .error ⟨msb, lsb⟩ ↔
      (msb.toNat / 16 = 0x5 ∧ lsb.toNat % 16 ≠ 0) ∨
      (msb.toNat / 16 = 0x8 ∧ lsb.toNat % 16 ∈ [0x8, 0x9, 0xA, 0xB, 0xC, 0xD, 0xF]) ∨
      (msb.toNat / 16 = 0x9 ∧ lsb.toNat % 16 ≠ 0) ∨
      (msb.toNat / 16 = 0xE ∧ lsb.toNat ∉ [0x9E, 0xA1]) ∨
      (msb.toNat / 16 = 0xF ∧ lsb.toNat ∉ [0x07, 0x0A, 0x15, 0x18, 0x1E, 0x29, 0x33, 0x55, 0x65])) ∧
    (∀ e, decode msb lsb = .error e → e = ⟨msb, lsb⟩)

/-! Events and the cycle (40_cycle_and_control_flow.md R120, 60_exceptions.md, 70_reset_and_hazards.md). -/

/-- The model's choice of the next event (log 6, log 7): the first one queued; with none queued, the first of the repeated ones, the others then queued; with neither, any event, drawn freely; nothing but the boundary changes. -/
def Obligations.NextEventIsQueuedRepeatedOrFree : Prop :=
  ∀ s : State,
    (∀ e rest, s.env.pending = e :: rest →
      nextEvent s = (e, { s with env := { s.env with present := false, pending := rest } })) ∧
    (∀ e rest, s.env.pending = [] → s.env.repeated = e :: rest →
      nextEvent s = (e, { s with env := { s.env with present := false, pending := rest } })) ∧
    (s.env.pending = [] → s.env.repeated = [] → ∃ e : Event,
      nextEvent s = (e, { s with env := { s.env with present := false, draws := s.env.draws + 1 } }))

/-- R120: in `Running`, when the two bytes at `pc` decode to an instruction, the step is that instruction's execution with `pc` moved past it and the event's inputs presented. [Rests on: the model executes at pc0 = 4093 as the rule's pseudocode says (log 21).] -/
def Obligations.StepExecutesTheDecodedInstruction : Prop :=
  ∀ (s s1 : State) (inp : Inputs) (i : Instr),
    nextEvent s = (.cpuStep inp, s1) → s1.env.hasReset = true → s.status = .running → s.pc.toNat < 4094 →
    decode (s.byte s.pc.toNat) (s.byte (s.pc.toNat + 1)) = .ok i →
    step s = exec i { s1.withInputs inp with pc := BitVec.ofNat 12 (s.pc.toNat + 2) }

/-- R120, R242, R243: a cycle at `pc0 >= 4094` faults in its fetch stage: `pc` is unchanged, the record has no bytes. [Rests on: that pc is unchanged and the layout of the record are the spec's own decisions D12 and D21.] -/
def Obligations.FetchAtTheTopOfMemoryHalts : Prop :=
  ∀ (s s1 : State) (inp : Inputs),
    nextEvent s = (.cpuStep inp, s1) → s1.env.hasReset = true → s.status = .running → 4094 ≤ s.pc.toNat →
    ∃ t, step s = .next t ∧ t.status = .halted ∧
      t.fault = some { kind := .outOfBounds, pc0 := s.pc, msb := none, lsb := none } ∧
      UnchangedExcept [.status, .fault, .env] s t

/-- R97, R242, R243: an illegal word halts the block: `pc` is `pc0 + 2`, the record names the address and the two bytes, nothing else changes. [Rests on: the layout of the record is the spec's own decision D21, and that a word at pc0 = 4093 is fetched and decoded is the model following the pseudocode of R120 (log 21).] -/
def Obligations.IllegalWordHaltsWithDecodeError : Prop :=
  ∀ (s s1 : State) (inp : Inputs) (e : DecodeError),
    nextEvent s = (.cpuStep inp, s1) → s1.env.hasReset = true → s.status = .running → s.pc.toNat < 4094 →
    decode (s.byte s.pc.toNat) (s.byte (s.pc.toNat + 1)) = .error e →
    ∃ t, step s = .next t ∧ t.status = .halted ∧ t.pc.toNat = s.pc.toNat + 2 ∧
      t.fault = some { kind := .decodeError, pc0 := s.pc, msb := some e.msb, lsb := some e.lsb } ∧
      e.msb = s.byte s.pc.toNat ∧ e.lsb = s.byte (s.pc.toNat + 1) ∧
      UnchangedExcept [.pc, .status, .fault, .env] s t

/-- R246: in `Halted`, a `cpu_step` and a `timer_tick` change no state; only the boundary moves on. [Rests on: the sticky halt is the spec's own decision D22.] -/
def Obligations.HaltedStepsChangeNoState : Prop :=
  ∀ (s s1 : State) (e : Event),
    nextEvent s = (e, s1) → e.keepsRunning = true → s1.env.hasReset = true → s.status = .halted →
    ∃ t, step s = .next t ∧ t = { s with env := t.env }

/-- R246 over a run: however many `cpu_step` and `timer_tick` events come, a halted block stays as it is. [Rests on: the sticky halt is the spec's own decision D22; the queue is the model's choice (log 6).] -/
def Obligations.HaltedRunsStayHalted : Prop :=
  ∀ (es rest : List Event) (s : State),
    s.status = .halted → s.env.hasReset = true → s.env.pending = es ++ rest →
    (∀ e ∈ es, e.keepsRunning = true) →
    ∃ t, run es.length s = .next t ∧ t = { s with env := t.env } ∧ t.env.pending = rest

/-- R36, R280, R281: what `reset(program)` leaves, in every status: the table of reset values with the program loaded; for an oversized program the same with an empty program, halted with ProgramTooLarge; and before the first `reset` no other event has an effect. [Rests on: the zeros are the spec's own decisions D3, D4, D5 (log 3), and the refusal before the first reset is the model's reading (log 10).] -/
def Obligations.ResetLeavesTheResetValues : Prop :=
  ∀ (s s1 : State),
    (∀ program : List Byte, nextEvent s = (.reset program, s1) → ∃ t, step s = .next t ∧
      t.pc = 512 ∧ (∀ r, t.reg r = 0) ∧ t.i = 0 ∧ t.stack = [] ∧ t.dt = 0 ∧ t.st = 0 ∧ t.tone = false ∧
      (∀ r c, t.fb.pixel r c = false) ∧ t.dtStatus = .stopped ∧ t.stStatus = .stopped ∧
      t.font = s.font ∧ (∀ (a : Nat) (h : a < 80), t.byte a = s.font[a]) ∧
      (∀ a, 80 ≤ a → a < 512 → t.byte a = 0) ∧
      (program.length ≤ 3584 →
        t.status = .running ∧ t.fault = none ∧
        (∀ (k : Nat) (h : k < program.length), t.byte (512 + k) = program[k]) ∧
        (∀ a, 512 + program.length ≤ a → t.byte a = 0)) ∧
      (3584 < program.length →
        t.status = .halted ∧
        t.fault = some { kind := .programTooLarge, pc0 := 512, msb := none, lsb := none } ∧
        (∀ a, 512 ≤ a → t.byte a = 0))) ∧
    (∀ e : Event, nextEvent s = (e, s1) → e.keepsRunning = true → s1.env.hasReset = false →
      step s = .refused .beforeFirstReset)

/-- R212, R213, R214: one `timer_tick` outside `Halted` ticks both timers, presents both statuses and updates the tone; it changes nothing else. [Rests on: that a tick is accepted in WaitKey is the spec's own decision D18.] -/
def Obligations.TimerTickTicksBothTimers : Prop :=
  ∀ (s s1 : State),
    nextEvent s = (.timerTick, s1) → s1.env.hasReset = true → s.status ≠ .halted →
    ∃ t, step s = .next t ∧
      (s.dt = 0 → t.dt = 0 ∧ t.dtStatus = .stopped) ∧
      (s.dt ≠ 0 → t.dt.toNat = s.dt.toNat - 1 ∧ t.dtStatus = if s.dt.toNat = 1 then .ended else .running) ∧
      (s.st = 0 → t.st = 0 ∧ t.stStatus = .stopped ∧ t.tone = s.tone) ∧
      (s.st ≠ 0 → t.st.toNat = s.st.toNat - 1) ∧
      (s.st.toNat = 1 → t.stStatus = .ended ∧ t.tone = false) ∧
      (2 ≤ s.st.toNat → t.stStatus = .running ∧ t.tone = s.tone) ∧
      UnchangedExcept [.dt, .dtStatus, .st, .stStatus, .tone, .env] s t

/-- R215: a sound timer set to v and then only ticked reaches 0 on exactly the v-th tick, and the tone is asserted for exactly v tick intervals. [Rests on: the v-th tick is an inference the spec marks as derived; the queue is the model's choice (log 6).] -/
def Obligations.ToneLastsExactlyTheTicksOfTheSoundTimer : Prop :=
  ∀ (s : State) (rest : List Event) (k : Nat),
    s.status ≠ .halted → s.env.hasReset = true → s.tone = decide (s.st ≠ 0) →
    s.env.pending = List.replicate s.st.toNat .timerTick ++ rest → k ≤ s.st.toNat →
    ∃ t, run k s = .next t ∧ t.st.toNat = s.st.toNat - k ∧ t.tone = decide (k < s.st.toNat) ∧
      t.dt.toNat = s.dt.toNat - k

/-- R234: a `cpu_step` in `WaitKey(x)` polls the keys and does nothing else: with no key pressed it stays blocked, otherwise V[x] becomes the index of a pressed key and the core runs again; for every pressed key some answer of the keypad reports it. [Rests on: the wait state and the free choice among pressed keys are the spec's own decision D17 (log 8).] -/
def Obligations.KeyWaitPollsTheKeys : Prop :=
  ∀ (s s1 : State) (inp : Inputs) (x : RegIx),
    nextEvent s = (.cpuStep inp, s1) → s1.env.hasReset = true → s.status = .waitKey x →
    ∃ t, step s = .next t ∧
      (inp.keys = 0 → t = { s with env := t.env }) ∧
      (inp.keys ≠ 0 → t.status = .running ∧ (t.reg x).toNat < 16 ∧ inp.keys.getLsbD (t.reg x).toNat = true ∧
        UnchangedExcept [.reg x, .status, .env] s t) ∧
      (∀ k : Nat, k < 16 → inp.keys.getLsbD k = true → ∃ pick : Nat, ∀ s' s1' : State,
        nextEvent s' = (.cpuStep { inp with keyPick := pick }, s1') → s1'.env.hasReset = true →
        s'.status = .waitKey x → ∃ t', step s' = .next t' ∧ (t'.reg x).toNat = k)

/-- R234 over a run: while no key is pressed the core stays in `WaitKey(x)` for ever; only the timers go on. [Rests on: the wait state and the timers' decay in it are the spec's own decisions D17 and D18; the queue is the model's choice (log 6).] -/
def Obligations.KeyWaitLastsWhileNoKeyIsPressed : Prop :=
  ∀ (es rest : List Event) (s : State) (x : RegIx),
    s.status = .waitKey x → s.env.hasReset = true → s.env.pending = es ++ rest →
    (∀ e ∈ es, e.pressesNoKey = true) →
    ∃ t, run es.length s = .next t ∧ t.status = .waitKey x ∧ t.env.pending = rest ∧
      UnchangedExcept [.dt, .dtStatus, .st, .stStatus, .tone, .env] s t

/-! Control transfer (40_cycle_and_control_flow.md). -/

/-- R126: RET pops the return address into `pc`; on an empty stack it halts with StackUnderflow. Every entry is in 2 to 4095 (R24, R35), the premise on the popped one. -/
def Obligations.RetPopsThePc : Prop :=
  ∀ s : State,
    (∀ (below : List Word) (a : Word), s.stack = below ++ [a] → a.toNat < 4096 →
      exec .ret s = .next { s with pc := a.setWidth 12, stack := below }) ∧
    (s.stack = [] → exec .ret s = .next (haltedBy .stackUnderflow s))

/-- R127, R242, R243: SYS always raises UnsupportedInstruction: the block halts, the record holds `pc0` and the two bytes, nothing else changes. -/
def Obligations.SysHaltsWithUnsupportedInstruction : Prop :=
  ∀ (nnn : Addr) (s : State), ∃ t, exec (.sys nnn) s = .next t ∧ t.status = .halted ∧
    t.fault = some
      { kind := .unsupportedInstruction, pc0 := s.pc - 2,
        msb := some (s.byte (s.pc - 2).toNat), lsb := some (s.byte ((s.pc - 2).toNat + 1)) } ∧
    UnchangedExcept [.status, .fault] s t

/-- R128: JMP sets `pc` to any 12-bit target and changes nothing else. -/
def Obligations.JmpSetsThePc : Prop :=
  ∀ (nnn : Addr) (s : State), exec (.jmp nnn) s = .next { s with pc := nnn }

/-- R129: CALL pushes the full return address and jumps; with 64 entries on the stack it halts with StackOverflow. -/
def Obligations.CallPushesTheReturnAddress : Prop :=
  ∀ (nnn : Addr) (s : State),
    (s.stack.length < 64 →
      exec (.call nnn) s = .next { s with stack := s.stack ++ [s.pc.setWidth 16], pc := nnn }) ∧
    (64 ≤ s.stack.length → exec (.call nnn) s = .next (haltedBy .stackOverflow s))

/-- R126, R129: a RET right after a CALL that did not fault brings back the state before the CALL. -/
def Obligations.RetUndoesCall : Prop :=
  ∀ (nnn : Addr) (s t : State), s.stack.length < 64 → exec (.call nnn) s = .next t → exec .ret t = .next s

/-- R130: JMPV jumps to `nnn + V[0]`, which does not wrap: 4096 or more halts with OutOfBounds. [Rests on: that the sum does not wrap is the spec's own decision D11.] -/
def Obligations.JmpvAddsV0WithoutWrapping : Prop :=
  ∀ (nnn : Addr) (s : State),
    (nnn.toNat + (s.reg 0).toNat < 4096 →
      exec (.jmpv nnn) s = .next { s with pc := BitVec.ofNat 12 (nnn.toNat + (s.reg 0).toNat) }) ∧
    (4096 ≤ nnn.toNat + (s.reg 0).toNat → exec (.jmpv nnn) s = .next (haltedBy .outOfBounds s))

/-- R131 to R134 with R123: the four register skips. -/
def Obligations.RegisterSkipsCompareAndSkip : Prop :=
  ∀ (x y : RegIx) (nn : Byte) (s : State),
    SkipsWhen (s.reg x = nn) (.skei x nn) s ∧
    SkipsWhen (s.reg x ≠ nn) (.skni x nn) s ∧
    SkipsWhen (s.reg x = s.reg y) (.sker x y) s ∧
    SkipsWhen (s.reg x ≠ s.reg y) (.sknr x y) s

/-- R231, R232: the key skips test the line of the key whose index is the whole V[x]; an index of 16 or more halts with OutOfBounds. [Rests on: the fault on an index of 16 or more is the spec's own decision D15.] -/
def Obligations.KeySkipsTestTheKeyLine : Prop :=
  ∀ (x : RegIx) (s : State),
    ((s.reg x).toNat < 16 →
      SkipsWhen (s.env.inputs.keys.getLsbD (s.reg x).toNat = true) (.skp x) s ∧
      SkipsWhen (s.env.inputs.keys.getLsbD (s.reg x).toNat = false) (.sknp x) s) ∧
    (16 ≤ (s.reg x).toNat →
      exec (.skp x) s = .next (haltedBy .outOfBounds s) ∧ exec (.sknp x) s = .next (haltedBy .outOfBounds s))

/-- R128, R298: a JMP to its own address is a parked state: the step leaves all state of the block unchanged. [Rests on: that a JMP at pc0 = 4093 executes is the model following the pseudocode of R120 (log 21).] -/
def Obligations.SelfJumpIsAParkedState : Prop :=
  ∀ (s s1 : State) (inp : Inputs),
    nextEvent s = (.cpuStep inp, s1) → s1.env.hasReset = true → s.status = .running → s.pc.toNat < 4094 →
    s.byte s.pc.toNat = msbOf (encode (.jmp s.pc)) → s.byte (s.pc.toNat + 1) = lsbOf (encode (.jmp s.pc)) →
    ∃ t, step s = .next t ∧ t = { s with env := t.env }

/-! Registers and arithmetic (41_register_alu.md). -/

/-- R142, R143, R144: MOV, ADDI and CPY write V[x] and nothing else; ADDI wraps and sets no flag. -/
def Obligations.MovesWriteOneRegister : Prop :=
  ∀ (x y : RegIx) (nn : Byte) (s : State),
    (∃ t, exec (.mov x nn) s = .next t ∧ t.reg x = nn ∧ UnchangedExcept [.reg x] s t) ∧
    (∃ t, exec (.addi x nn) s = .next t ∧ (t.reg x).toNat = ((s.reg x).toNat + nn.toNat) % 256 ∧
      UnchangedExcept [.reg x] s t) ∧
    (∃ t, exec (.cpy x y) s = .next t ∧ t.reg x = s.reg y ∧ UnchangedExcept [.reg x] s t)

/-- R145, R146, R147: OR, AND and XOR act bit by bit on V[x] and leave VF alone. -/
def Obligations.LogicActsBitByBitAndSetsNoFlag : Prop :=
  ∀ (x y : RegIx) (s : State),
    (∃ t, exec (.or x y) s = .next t ∧
      (∀ b, (t.reg x).getLsbD b = ((s.reg x).getLsbD b || (s.reg y).getLsbD b)) ∧ UnchangedExcept [.reg x] s t) ∧
    (∃ t, exec (.and x y) s = .next t ∧
      (∀ b, (t.reg x).getLsbD b = ((s.reg x).getLsbD b && (s.reg y).getLsbD b)) ∧ UnchangedExcept [.reg x] s t) ∧
    (∃ t, exec (.xor x y) s = .next t ∧
      (∀ b, (t.reg x).getLsbD b = ((s.reg x).getLsbD b ^^ (s.reg y).getLsbD b)) ∧ UnchangedExcept [.reg x] s t)

/-- R148, R149, R151 with R141: ADD, SUB and RSB write the wrapped result to V[x], then the carry or no-borrow bit to VF, both from the old values; on x = 15 the bit remains. -/
def Obligations.AddAndSubtractSetTheFlag : Prop :=
  ∀ (x y : RegIx) (s : State),
    (∃ t, exec (.add x y) s = .next t ∧
      (x ≠ 15 → (t.reg x).toNat = ((s.reg x).toNat + (s.reg y).toNat) % 256) ∧
      t.reg 15 = (if (s.reg x).toNat + (s.reg y).toNat > 255 then 1 else 0) ∧
      UnchangedExcept [.reg x, .reg 15] s t) ∧
    (∃ t, exec (.sub x y) s = .next t ∧
      (x ≠ 15 → (t.reg x).toNat = ((s.reg x).toNat + 256 - (s.reg y).toNat) % 256) ∧
      t.reg 15 = (if (s.reg x).toNat ≥ (s.reg y).toNat then 1 else 0) ∧
      UnchangedExcept [.reg x, .reg 15] s t) ∧
    (∃ t, exec (.rsb x y) s = .next t ∧
      (x ≠ 15 → (t.reg x).toNat = ((s.reg y).toNat + 256 - (s.reg x).toNat) % 256) ∧
      t.reg 15 = (if (s.reg y).toNat ≥ (s.reg x).toNat then 1 else 0) ∧
      UnchangedExcept [.reg x, .reg 15] s t)

/-- R150, R152 with R141: SHR and SHL shift V[x] by 1, ignore y, and put the bit shifted out in VF. -/
def Obligations.ShiftsPutTheLostBitInTheFlag : Prop :=
  ∀ (x y : RegIx) (s : State),
    (∃ t, exec (.shr x y) s = .next t ∧
      (x ≠ 15 → (t.reg x).toNat = (s.reg x).toNat / 2) ∧ (t.reg 15).toNat = (s.reg x).toNat % 2 ∧
      UnchangedExcept [.reg x, .reg 15] s t) ∧
    (∃ t, exec (.shl x y) s = .next t ∧
      (x ≠ 15 → (t.reg x).toNat = (s.reg x).toNat * 2 % 256) ∧ (t.reg 15).toNat = (s.reg x).toNat / 128 ∧
      UnchangedExcept [.reg x, .reg 15] s t)

/-- R153: RND writes the sampled byte AND nn, whatever the byte is; nothing else changes. [Rests on: that the byte is under no law is the spec's own decision D24 (log 7).] -/
def Obligations.RndMasksTheSampledByte : Prop :=
  ∀ (x : RegIx) (nn : Byte) (s : State), ∃ t, exec (.rnd x nn) s = .next t ∧
    t.reg x = s.env.inputs.rand &&& nn ∧ t.reg x &&& ~~~nn = 0 ∧ UnchangedExcept [.reg x] s t

/-! Address register and memory (42_index_and_memory.md). -/

/-- R171, R173: LDI and FNT write I: the zero-extended address, and five times the whole V[x]. [Rests on: FNT on 16 or more is the spec's own decision D16.] -/
def Obligations.LdiAndFntWriteTheAddressRegister : Prop :=
  ∀ (x : RegIx) (nnn : Addr) (s : State),
    (∃ t, exec (.ldi nnn) s = .next t ∧ t.i.toNat = nnn.toNat ∧ UnchangedExcept [.i] s t) ∧
    (∃ t, exec (.fnt x) s = .next t ∧ t.i.toNat = 5 * (s.reg x).toNat ∧ UnchangedExcept [.i] s t)

/-- R172: ADI adds V[x] to I modulo 65536, and writes the 16-bit overflow bit to VF exactly when FX1E_SETS_VF is true; the statement holds for both values of the parameter. [Rests on: the parameter is the spec's own decision D19.] -/
def Obligations.AdiAddsToTheAddressRegister : Prop :=
  ∀ (x : RegIx) (s : State), ∃ t, exec (.adi x) s = .next t ∧
    t.i.toNat = (s.i.toNat + (s.reg x).toNat) % 65536 ∧
    (Config.fx1eSetsVF = true → t.reg 15 = if s.i.toNat + (s.reg x).toNat > 65535 then 1 else 0) ∧
    (Config.fx1eSetsVF = false → t.reg 15 = s.reg 15) ∧
    UnchangedExcept [.i, .reg 15] s t

/-- R174 with R170: BCD stores the three decimal digits at I, I+1, I+2 and nothing else; past the end of memory it halts with OutOfBounds and stores nothing. -/
def Obligations.BcdStoresTheDecimalDigits : Prop :=
  ∀ (x : RegIx) (s : State),
    (s.dataAddr 2 < 4096 → ∃ t, exec (.bcd x) s = .next t ∧
      (t.byte (s.dataAddr 0)).toNat = (s.reg x).toNat / 100 ∧
      (t.byte (s.dataAddr 1)).toNat = (s.reg x).toNat / 10 % 10 ∧
      (t.byte (s.dataAddr 2)).toNat = (s.reg x).toNat % 10 ∧
      SameMemoryOutside (s.dataAddr 0) 3 s t ∧ UnchangedExcept [.mem] s t) ∧
    (4096 ≤ s.dataAddr 2 → exec (.bcd x) s = .next (haltedBy .outOfBounds s))

/-- R175 with R170: STM stores V[k] at I+k for k up to x and nothing else; past the end of memory it halts and stores nothing. -/
def Obligations.StmStoresTheRegisterBlock : Prop :=
  ∀ (x : RegIx) (s : State),
    (s.dataAddr x < 4096 → ∃ t, exec (.stm x) s = .next t ∧
      (∀ k : RegIx, k ≤ x → t.byte (s.dataAddr k) = s.reg k) ∧
      SameMemoryOutside (s.dataAddr 0) (x.val + 1) s t ∧ UnchangedExcept [.mem] s t) ∧
    (4096 ≤ s.dataAddr x → exec (.stm x) s = .next (haltedBy .outOfBounds s))

/-- R176 with R170: LDM loads V[k] from I+k for k up to x; registers above V[x], memory and I are unchanged; past the end of memory it halts and loads nothing. -/
def Obligations.LdmLoadsTheRegisterBlock : Prop :=
  ∀ (x : RegIx) (s : State),
    (s.dataAddr x < 4096 → ∃ t, exec (.ldm x) s = .next t ∧
      (∀ k : RegIx, k ≤ x → t.reg k = s.byte (s.dataAddr k)) ∧
      (∀ k : RegIx, x < k → t.reg k = s.reg k) ∧
      UnchangedExcept ((regsUpTo x).map .reg) s t) ∧
    (4096 ≤ s.dataAddr x → exec (.ldm x) s = .next (haltedBy .outOfBounds s))

/-- R79: a store of BCD or STM, wherever it lies, is seen by the very next fetch: the two bytes fetched are those in memory after the store, the stored ones where it overlaps the next instruction. [Rests on: the coherence of fetch and store is the spec's own decision D23; the fetch at pc = 4093 is the model following the pseudocode of R120 (log 21).] -/
def Obligations.StoresAreSeenByTheNextFetch : Prop :=
  ∀ (x : RegIx) (s : State), s.pc.toNat < 4094 →
    (s.dataAddr 2 < 4096 → ∃ t u, exec (.bcd x) s = .next t ∧
      fetch t = some (byteAfterBcd x s s.pc.toNat, byteAfterBcd x s (s.pc.toNat + 1), u) ∧
      u.pc.toNat = s.pc.toNat + 2 ∧ UnchangedExcept [.pc, .mem] s u) ∧
    (s.dataAddr x < 4096 → ∃ t u, exec (.stm x) s = .next t ∧
      fetch t = some (byteAfterStm x s s.pc.toNat, byteAfterStm x s (s.pc.toNat + 1), u) ∧
      u.pc.toNat = s.pc.toNat + 2 ∧ UnchangedExcept [.pc, .mem] s u)

/-! Display (43_display.md). -/

/-- R192, R196: CLS clears every pixel and emits `present`; no register, timer or memory byte changes. -/
def Obligations.ClsClearsEveryPixel : Prop :=
  ∀ s : State, ∃ t, exec .cls s = .next t ∧ (∀ r c, t.fb.pixel r c = false) ∧
    t.env = { s.env with present := true } ∧ UnchangedExcept [.fb, .env] s t

/-- R193, R194, R196: a sprite that fits memory and grid is XORed onto the grid pixel by pixel, VF becomes 1 exactly when a set pixel was cleared and 0 otherwise, `present` is emitted, and nothing else changes; n = 0 draws nothing and never faults. [Rests on: bit 7 as the leftmost pixel (D7, log 15), VF := 0 without collision (D14) and the pulse (D30) are the spec's own decisions.] -/
def Obligations.DrwXorsTheSpriteAndReportsCollision : Prop :=
  ∀ (x y : RegIx) (n : BitVec 4) (s : State),
    (n = 0 ∨ (s.i.toNat + (n.toNat - 1) < 4096 ∧ (s.reg y).toNat + (n.toNat - 1) < 32)) →
    ∃ t, exec (.drw x y n) s = .next t ∧
      (∀ r c, r < 32 → c < 64 → SpriteCovers x y n s r c → t.fb.pixel r c = !s.fb.pixel r c) ∧
      (∀ r c, ¬ SpriteCovers x y n s r c → t.fb.pixel r c = s.fb.pixel r c) ∧
      ((∃ r c, SpriteCovers x y n s r c ∧ s.fb.pixel r c = true) → t.reg 15 = 1) ∧
      ((¬ ∃ r c, SpriteCovers x y n s r c ∧ s.fb.pixel r c = true) → t.reg 15 = 0) ∧
      t.env = { s.env with present := true } ∧ UnchangedExcept [.reg 15, .fb, .env] s t

/-- R194: a sprite byte outside memory or a sprite row below the grid halts with OutOfBounds, whatever the sprite data; the grid and VF are unchanged. [Rests on: the row check is the spec's own decision D13.] -/
def Obligations.DrwFaultsOutsideMemoryOrGrid : Prop :=
  ∀ (x y : RegIx) (n : BitVec 4) (s : State),
    n ≠ 0 → (4096 ≤ s.i.toNat + (n.toNat - 1) ∨ 32 ≤ (s.reg y).toNat + (n.toNat - 1)) →
    exec (.drw x y n) s = .next (haltedBy .outOfBounds s)

/-- R195: drawing the same sprite twice at the same coordinates restores the grid; from a clear grid the first draw reports no collision and the second one does if the sprite is nonzero. [Rests on: the spec marks the restoring of the grid as its own derivation; VF := 0 without collision is its own decision D14.] -/
def Obligations.DrawingTwiceRestoresTheGrid : Prop :=
  ∀ (x y : RegIx) (n : BitVec 4) (s t : State),
    exec (.drw x y n) s = .next t → s.status = .running → t.status = .running →
    t.reg x = s.reg x → t.reg y = s.reg y →
    ∃ u, exec (.drw x y n) t = .next u ∧ u.fb = s.fb ∧
      ((∀ r c, s.fb.pixel r c = false) → t.reg 15 = 0 ∧
        ((∃ k, k < n.toNat ∧ s.byte (s.i.toNat + k) ≠ 0) → u.reg 15 = 1))

/-! Timers and keypad (44_timers.md, 45_keypad.md). -/

/-- R216: GDT copies DT to V[x]; DT and its status output are unchanged. -/
def Obligations.GdtReadsTheDelayTimer : Prop :=
  ∀ (x : RegIx) (s : State), ∃ t, exec (.gdt x) s = .next t ∧ t.reg x = s.dt ∧ UnchangedExcept [.reg x] s t

/-- R211, R217: SDT sets DT to V[x] and presents the status of the transition table; the tone is not affected. -/
def Obligations.SdtSetsTheDelayTimer : Prop :=
  ∀ (x : RegIx) (s : State), ∃ t, exec (.sdt x) s = .next t ∧ t.dt = s.reg x ∧
    (s.dt = 0 → s.reg x = 0 → t.dtStatus = .stopped) ∧
    (s.dt ≠ 0 → s.reg x = 0 → t.dtStatus = .ended) ∧
    (s.dt = 0 → s.reg x ≠ 0 → t.dtStatus = .started) ∧
    (s.dt ≠ 0 → s.reg x ≠ 0 → t.dtStatus = .running) ∧
    UnchangedExcept [.dt, .dtStatus] s t

/-- R211, R214, R218: SST sets ST to V[x], presents the status, asserts the tone on Started, deasserts it on End and leaves it otherwise. -/
def Obligations.SstSetsTheSoundTimerAndGatesTheTone : Prop :=
  ∀ (x : RegIx) (s : State), ∃ t, exec (.sst x) s = .next t ∧ t.st = s.reg x ∧
    (s.st = 0 → s.reg x = 0 → t.stStatus = .stopped ∧ t.tone = s.tone) ∧
    (s.st ≠ 0 → s.reg x = 0 → t.stStatus = .ended ∧ t.tone = false) ∧
    (s.st = 0 → s.reg x ≠ 0 → t.stStatus = .started ∧ t.tone = true) ∧
    (s.st ≠ 0 → s.reg x ≠ 0 → t.stStatus = .running ∧ t.tone = s.tone) ∧
    UnchangedExcept [.st, .stStatus, .tone] s t

/-- R233, R234: KEY with no key pressed blocks in `WaitKey(x)` and writes no register; with a key pressed it completes in the same cycle with the index of a pressed key; for every pressed key some answer of the keypad reports it. [Rests on: the wait state, its level-sensitivity and the free choice among pressed keys are the spec's own decision D17 (log 8).] -/
def Obligations.KeyBlocksOrReportsAPressedKey : Prop :=
  ∀ (x : RegIx) (s : State),
    (s.env.inputs.keys = 0 → exec (.key x) s = .next { s with status := .waitKey x }) ∧
    (s.env.inputs.keys ≠ 0 → ∃ t, exec (.key x) s = .next t ∧ t.status = .running ∧
      (t.reg x).toNat < 16 ∧ s.env.inputs.keys.getLsbD (t.reg x).toNat = true ∧
      UnchangedExcept [.reg x, .status] s t) ∧
    (∀ k : Nat, k < 16 → s.env.inputs.keys.getLsbD k = true → ∃ (pick : Nat) (t : State),
      exec (.key x) (s.withInputs { s.env.inputs with keyPick := pick }) = .next t ∧ (t.reg x).toNat = k)

/-! The whole machine. -/

/-- R240, R241: every cause of a fault in the execute stage, complete: an instruction faults exactly on the conditions listed, with the kind listed, and otherwise completes. The invariant of R35 rules out return addresses outside memory. [Rests on: the spec marks the completeness of the list as its own derivation.] -/
def Obligations.ExecuteFaultsAreExactlyThoseListed : Prop :=
  ∀ (i : Instr) (s : State), s.Inv → s.status = .running →
    (∀ k, executeFault i s = some k → exec i s = .next (haltedBy k s)) ∧
    (executeFault i s = none → ∃ t, exec i s = .next t ∧ t.status ≠ .halted ∧ t.fault = s.fault)

/-- R37: an instruction that completes writes no part of the state outside its row of the access matrix. [Rests on: the spec marks the matrix as its own derivation.] -/
def Obligations.InstructionsWriteOnlyTheirAccessMatrixRow : Prop :=
  ∀ (i : Instr) (s t : State), exec i s = .next t → t.status ≠ .halted → UnchangedExcept (writtenParts i) s t

/-- R37, R153, R230: only RND, SKP, SKNP and KEY sample the inputs: any other instruction does the same whatever the host presents. [Rests on: the spec marks the matrix as its own derivation.] -/
def Obligations.OnlyFourInstructionsSampleTheInputs : Prop :=
  ∀ (i : Instr) (s : State) (inp : Inputs), samplesInputs i = false →
    ∃ t, exec i s = .next t ∧ exec i (s.withInputs inp) = .next (t.withInputs inp)

/-- R243, R244: faults are precise: an event other than `reset` that halts the block changes nothing but `pc` (by the completed fetch), the status and the record, which names the address of the faulting instruction. -/
def Obligations.FaultsArePrecise : Prop :=
  ∀ (s s1 t : State) (e : Event),
    nextEvent s = (e, s1) → e.keepsRunning = true → step s = .next t →
    s.status ≠ .halted → t.status = .halted →
    (t.pc = s.pc ∨ t.pc.toNat = s.pc.toNat + 2) ∧
    (∃ r, t.fault = some r ∧ r.pc0 = s.pc) ∧
    UnchangedExcept [.pc, .status, .fault, .env] s t

/-- R36, R246: after a first reset every event has an effect the model gives: a step answers a next state, and no reset is ever forgotten. [Rests on: that a fault is taken as a next state is the model's reading (log 1).] -/
def Obligations.StepAlwaysAnswersANextState : Prop :=
  ∀ s : State, s.env.hasReset = true → ∃ t, step s = .next t ∧ t.env.hasReset = true

/-- R35: what holds after every event is kept by every step, from every state in which it holds. [Rests on: the spec marks these lines as its own derivation; the canonical form is the model's representation (log 14).] -/
def Obligations.EveryStepKeepsTheInvariant : Prop :=
  ∀ s t : State, s.Inv → step s = .next t → t.Inv

/-- R35, R36: the state right after reset meets the invariant. [Rests on: the reset values beyond pc are the spec's own decision D3 (log 3).] -/
def Obligations.ResetMeetsTheInvariant : Prop := State.reset.Inv

/-- R9, R18: FONT_TABLE is a parameter: from any of its values, no event changes it, `reset` included. [Rests on: that the parameter stands in a field of the state is the model's choice (log 4).] -/
def Obligations.NoStepChangesTheFontTable : Prop :=
  ∀ s t : State, step s = .next t → t.font = s.font

/-- R286: any order of events is a legal schedule: with some events queued and others repeated for ever, the event that step n takes is the one in that place of the infinite sequence. [Rests on: that every order is legal is the spec's own decision D25; the queue and the repeated events are the model's choice (log 6).] -/
def Obligations.EventsArriveInTheOrderTheHostIssues : Prop :=
  ∀ (s : State) (first cycle : List Event) (hc : cycle ≠ []) (n : Nat),
    s.env.hasReset = true → s.env.pending = first → s.env.repeated = cycle →
    ∃ t, run n s = .next t ∧ t.nextIs
      (if h : n < first.length then first[n]
       else cycle[(n - first.length) % cycle.length]'(Nat.mod_lt _ (List.length_pos_iff.2 hc)))

/-- R287: if ticks keep arriving, the delay timer reaches 0 in every run without end that never halts and never raises it. [Rests on: the spec marks R287 as its own derivation.] -/
def Obligations.FairTicksBringTheDelayTimerToZero : Prop :=
  ∀ σ : Nat → State, IsRun σ → TicksKeepArriving σ →
    (∀ n, (σ n).status ≠ .halted) → (∀ n, (σ (n + 1)).dt.toNat ≤ (σ n).dt.toNat) → ∃ n, (σ n).dt = 0

/-- R287: if `cpu_step` events keep arriving and a key is eventually pressed and held, a key wait ends in every run without end and without reset: the core runs again, with the index of a key in V[x]. [Rests on: the spec marks R287 as its own derivation; the wait state is its own decision D17.] -/
def Obligations.FairKeyPressesEndTheKeyWait : Prop :=
  ∀ (σ : Nat → State) (x : RegIx), IsRun σ → NoReset σ → CyclesKeepArriving σ → AKeyIsEventuallyHeld σ →
    (σ 0).status = .waitKey x → ∃ n, (σ n).status = .running ∧ ((σ n).reg x).toNat < 16

/-- R287: the block itself brings no timer to 0: a `cpu_step` changes the delay timer only by executing an SDT. [Rests on: the spec marks R287 and the matrix of R37 as its own derivations.] -/
def Obligations.CpuStepsChangeTheDelayTimerOnlyBySdt : Prop :=
  ∀ (s s1 t : State) (inp : Inputs),
    nextEvent s = (.cpuStep inp, s1) → step s = .next t →
    (∀ x, s.status = .running → decode (s.byte s.pc.toNat) (s.byte (s.pc.toNat + 1)) ≠ .ok (.sdt x)) →
    t.dt = s.dt
end

