-- ==== Sys2Proof/Laws/State.lean ====
section
/-! SUPPORT. One lemma per field per update of the state, each true by rfl, so that no later proof unfolds a record update; and the reads of a register and of a byte through each update. -/

namespace Sys2Proof.Machine

/-! `setReg` -/

@[simp] theorem State.setReg_v (s : State) (r : RegIx) (b : Byte) : (s.setReg r b).v = s.v.set r b := rfl
@[simp] theorem State.setReg_i (s : State) (r : RegIx) (b : Byte) : (s.setReg r b).i = s.i := rfl
@[simp] theorem State.setReg_pc (s : State) (r : RegIx) (b : Byte) : (s.setReg r b).pc = s.pc := rfl
@[simp] theorem State.setReg_stack (s : State) (r : RegIx) (b : Byte) : (s.setReg r b).stack = s.stack := rfl
@[simp] theorem State.setReg_dt (s : State) (r : RegIx) (b : Byte) : (s.setReg r b).dt = s.dt := rfl
@[simp] theorem State.setReg_st (s : State) (r : RegIx) (b : Byte) : (s.setReg r b).st = s.st := rfl
@[simp] theorem State.setReg_tone (s : State) (r : RegIx) (b : Byte) : (s.setReg r b).tone = s.tone := rfl
@[simp] theorem State.setReg_fb (s : State) (r : RegIx) (b : Byte) : (s.setReg r b).fb = s.fb := rfl
@[simp] theorem State.setReg_mem (s : State) (r : RegIx) (b : Byte) : (s.setReg r b).mem = s.mem := rfl
@[simp] theorem State.setReg_font (s : State) (r : RegIx) (b : Byte) : (s.setReg r b).font = s.font := rfl
@[simp] theorem State.setReg_status (s : State) (r : RegIx) (b : Byte) : (s.setReg r b).status = s.status := rfl
@[simp] theorem State.setReg_fault (s : State) (r : RegIx) (b : Byte) : (s.setReg r b).fault = s.fault := rfl
@[simp] theorem State.setReg_dtStatus (s : State) (r : RegIx) (b : Byte) : (s.setReg r b).dtStatus = s.dtStatus := rfl
@[simp] theorem State.setReg_stStatus (s : State) (r : RegIx) (b : Byte) : (s.setReg r b).stStatus = s.stStatus := rfl
@[simp] theorem State.setReg_env (s : State) (r : RegIx) (b : Byte) : (s.setReg r b).env = s.env := rfl
@[simp] theorem State.setReg_byte (s : State) (r : RegIx) (b : Byte) (a : Nat) : (s.setReg r b).byte a = s.byte a := rfl

/-! `setFlag` -/

@[simp] theorem State.setFlag_v (s : State) (f : Bool) : (s.setFlag f).v = s.v.set vf (bitByte f) := rfl
@[simp] theorem State.setFlag_i (s : State) (f : Bool) : (s.setFlag f).i = s.i := rfl
@[simp] theorem State.setFlag_pc (s : State) (f : Bool) : (s.setFlag f).pc = s.pc := rfl
@[simp] theorem State.setFlag_stack (s : State) (f : Bool) : (s.setFlag f).stack = s.stack := rfl
@[simp] theorem State.setFlag_dt (s : State) (f : Bool) : (s.setFlag f).dt = s.dt := rfl
@[simp] theorem State.setFlag_st (s : State) (f : Bool) : (s.setFlag f).st = s.st := rfl
@[simp] theorem State.setFlag_tone (s : State) (f : Bool) : (s.setFlag f).tone = s.tone := rfl
@[simp] theorem State.setFlag_fb (s : State) (f : Bool) : (s.setFlag f).fb = s.fb := rfl
@[simp] theorem State.setFlag_mem (s : State) (f : Bool) : (s.setFlag f).mem = s.mem := rfl
@[simp] theorem State.setFlag_font (s : State) (f : Bool) : (s.setFlag f).font = s.font := rfl
@[simp] theorem State.setFlag_status (s : State) (f : Bool) : (s.setFlag f).status = s.status := rfl
@[simp] theorem State.setFlag_fault (s : State) (f : Bool) : (s.setFlag f).fault = s.fault := rfl
@[simp] theorem State.setFlag_dtStatus (s : State) (f : Bool) : (s.setFlag f).dtStatus = s.dtStatus := rfl
@[simp] theorem State.setFlag_stStatus (s : State) (f : Bool) : (s.setFlag f).stStatus = s.stStatus := rfl
@[simp] theorem State.setFlag_env (s : State) (f : Bool) : (s.setFlag f).env = s.env := rfl
@[simp] theorem State.setFlag_byte (s : State) (f : Bool) (a : Nat) : (s.setFlag f).byte a = s.byte a := rfl

/-! `setResultFlag` -/

@[simp] theorem State.setResultFlag_v (s : State) (x : RegIx) (b : Byte) (f : Bool) : (s.setResultFlag x b f).v = (s.v.set x b).set vf (bitByte f) := rfl
@[simp] theorem State.setResultFlag_i (s : State) (x : RegIx) (b : Byte) (f : Bool) : (s.setResultFlag x b f).i = s.i := rfl
@[simp] theorem State.setResultFlag_pc (s : State) (x : RegIx) (b : Byte) (f : Bool) : (s.setResultFlag x b f).pc = s.pc := rfl
@[simp] theorem State.setResultFlag_stack (s : State) (x : RegIx) (b : Byte) (f : Bool) : (s.setResultFlag x b f).stack = s.stack := rfl
@[simp] theorem State.setResultFlag_dt (s : State) (x : RegIx) (b : Byte) (f : Bool) : (s.setResultFlag x b f).dt = s.dt := rfl
@[simp] theorem State.setResultFlag_st (s : State) (x : RegIx) (b : Byte) (f : Bool) : (s.setResultFlag x b f).st = s.st := rfl
@[simp] theorem State.setResultFlag_tone (s : State) (x : RegIx) (b : Byte) (f : Bool) : (s.setResultFlag x b f).tone = s.tone := rfl
@[simp] theorem State.setResultFlag_fb (s : State) (x : RegIx) (b : Byte) (f : Bool) : (s.setResultFlag x b f).fb = s.fb := rfl
@[simp] theorem State.setResultFlag_mem (s : State) (x : RegIx) (b : Byte) (f : Bool) : (s.setResultFlag x b f).mem = s.mem := rfl
@[simp] theorem State.setResultFlag_font (s : State) (x : RegIx) (b : Byte) (f : Bool) : (s.setResultFlag x b f).font = s.font := rfl
@[simp] theorem State.setResultFlag_status (s : State) (x : RegIx) (b : Byte) (f : Bool) : (s.setResultFlag x b f).status = s.status := rfl
@[simp] theorem State.setResultFlag_fault (s : State) (x : RegIx) (b : Byte) (f : Bool) : (s.setResultFlag x b f).fault = s.fault := rfl
@[simp] theorem State.setResultFlag_dtStatus (s : State) (x : RegIx) (b : Byte) (f : Bool) : (s.setResultFlag x b f).dtStatus = s.dtStatus := rfl
@[simp] theorem State.setResultFlag_stStatus (s : State) (x : RegIx) (b : Byte) (f : Bool) : (s.setResultFlag x b f).stStatus = s.stStatus := rfl
@[simp] theorem State.setResultFlag_env (s : State) (x : RegIx) (b : Byte) (f : Bool) : (s.setResultFlag x b f).env = s.env := rfl
@[simp] theorem State.setResultFlag_byte (s : State) (x : RegIx) (b : Byte) (f : Bool) (a : Nat) : (s.setResultFlag x b f).byte a = s.byte a := rfl

/-! `emitPresent` -/

@[simp] theorem State.emitPresent_v (s : State) : (s.emitPresent).v = s.v := rfl
@[simp] theorem State.emitPresent_i (s : State) : (s.emitPresent).i = s.i := rfl
@[simp] theorem State.emitPresent_pc (s : State) : (s.emitPresent).pc = s.pc := rfl
@[simp] theorem State.emitPresent_stack (s : State) : (s.emitPresent).stack = s.stack := rfl
@[simp] theorem State.emitPresent_dt (s : State) : (s.emitPresent).dt = s.dt := rfl
@[simp] theorem State.emitPresent_st (s : State) : (s.emitPresent).st = s.st := rfl
@[simp] theorem State.emitPresent_tone (s : State) : (s.emitPresent).tone = s.tone := rfl
@[simp] theorem State.emitPresent_fb (s : State) : (s.emitPresent).fb = s.fb := rfl
@[simp] theorem State.emitPresent_mem (s : State) : (s.emitPresent).mem = s.mem := rfl
@[simp] theorem State.emitPresent_font (s : State) : (s.emitPresent).font = s.font := rfl
@[simp] theorem State.emitPresent_status (s : State) : (s.emitPresent).status = s.status := rfl
@[simp] theorem State.emitPresent_fault (s : State) : (s.emitPresent).fault = s.fault := rfl
@[simp] theorem State.emitPresent_dtStatus (s : State) : (s.emitPresent).dtStatus = s.dtStatus := rfl
@[simp] theorem State.emitPresent_stStatus (s : State) : (s.emitPresent).stStatus = s.stStatus := rfl
@[simp] theorem State.emitPresent_env (s : State) : (s.emitPresent).env = { s.env with present := true } := rfl
@[simp] theorem State.emitPresent_byte (s : State) (a : Nat) : (s.emitPresent).byte a = s.byte a := rfl
@[simp] theorem State.emitPresent_reg (s : State) (q : RegIx) : (s.emitPresent).reg q = s.reg q := rfl

/-! `withInputs` -/

@[simp] theorem State.withInputs_v (s : State) (inp : Inputs) : (s.withInputs inp).v = s.v := rfl
@[simp] theorem State.withInputs_i (s : State) (inp : Inputs) : (s.withInputs inp).i = s.i := rfl
@[simp] theorem State.withInputs_pc (s : State) (inp : Inputs) : (s.withInputs inp).pc = s.pc := rfl
@[simp] theorem State.withInputs_stack (s : State) (inp : Inputs) : (s.withInputs inp).stack = s.stack := rfl
@[simp] theorem State.withInputs_dt (s : State) (inp : Inputs) : (s.withInputs inp).dt = s.dt := rfl
@[simp] theorem State.withInputs_st (s : State) (inp : Inputs) : (s.withInputs inp).st = s.st := rfl
@[simp] theorem State.withInputs_tone (s : State) (inp : Inputs) : (s.withInputs inp).tone = s.tone := rfl
@[simp] theorem State.withInputs_fb (s : State) (inp : Inputs) : (s.withInputs inp).fb = s.fb := rfl
@[simp] theorem State.withInputs_mem (s : State) (inp : Inputs) : (s.withInputs inp).mem = s.mem := rfl
@[simp] theorem State.withInputs_font (s : State) (inp : Inputs) : (s.withInputs inp).font = s.font := rfl
@[simp] theorem State.withInputs_status (s : State) (inp : Inputs) : (s.withInputs inp).status = s.status := rfl
@[simp] theorem State.withInputs_fault (s : State) (inp : Inputs) : (s.withInputs inp).fault = s.fault := rfl
@[simp] theorem State.withInputs_dtStatus (s : State) (inp : Inputs) : (s.withInputs inp).dtStatus = s.dtStatus := rfl
@[simp] theorem State.withInputs_stStatus (s : State) (inp : Inputs) : (s.withInputs inp).stStatus = s.stStatus := rfl
@[simp] theorem State.withInputs_env (s : State) (inp : Inputs) : (s.withInputs inp).env = { s.env with inputs := inp } := rfl
@[simp] theorem State.withInputs_byte (s : State) (inp : Inputs) (a : Nat) : (s.withInputs inp).byte a = s.byte a := rfl
@[simp] theorem State.withInputs_reg (s : State) (inp : Inputs) (q : RegIx) : (s.withInputs inp).reg q = s.reg q := rfl

/-! `setDelay` -/

@[simp] theorem setDelay_v (b : Byte) (s : State) : (setDelay b s).v = s.v := rfl
@[simp] theorem setDelay_i (b : Byte) (s : State) : (setDelay b s).i = s.i := rfl
@[simp] theorem setDelay_pc (b : Byte) (s : State) : (setDelay b s).pc = s.pc := rfl
@[simp] theorem setDelay_stack (b : Byte) (s : State) : (setDelay b s).stack = s.stack := rfl
@[simp] theorem setDelay_dt (b : Byte) (s : State) : (setDelay b s).dt = b := rfl
@[simp] theorem setDelay_st (b : Byte) (s : State) : (setDelay b s).st = s.st := rfl
@[simp] theorem setDelay_tone (b : Byte) (s : State) : (setDelay b s).tone = s.tone := rfl
@[simp] theorem setDelay_fb (b : Byte) (s : State) : (setDelay b s).fb = s.fb := rfl
@[simp] theorem setDelay_mem (b : Byte) (s : State) : (setDelay b s).mem = s.mem := rfl
@[simp] theorem setDelay_font (b : Byte) (s : State) : (setDelay b s).font = s.font := rfl
@[simp] theorem setDelay_status (b : Byte) (s : State) : (setDelay b s).status = s.status := rfl
@[simp] theorem setDelay_fault (b : Byte) (s : State) : (setDelay b s).fault = s.fault := rfl
@[simp] theorem setDelay_dtStatus (b : Byte) (s : State) : (setDelay b s).dtStatus = setStatus s.dt b := rfl
@[simp] theorem setDelay_stStatus (b : Byte) (s : State) : (setDelay b s).stStatus = s.stStatus := rfl
@[simp] theorem setDelay_env (b : Byte) (s : State) : (setDelay b s).env = s.env := rfl
@[simp] theorem setDelay_byte (b : Byte) (s : State) (a : Nat) : (setDelay b s).byte a = s.byte a := rfl
@[simp] theorem setDelay_reg (b : Byte) (s : State) (q : RegIx) : (setDelay b s).reg q = s.reg q := rfl

/-! `setSound` -/

@[simp] theorem setSound_v (b : Byte) (s : State) : (setSound b s).v = s.v := rfl
@[simp] theorem setSound_i (b : Byte) (s : State) : (setSound b s).i = s.i := rfl
@[simp] theorem setSound_pc (b : Byte) (s : State) : (setSound b s).pc = s.pc := rfl
@[simp] theorem setSound_stack (b : Byte) (s : State) : (setSound b s).stack = s.stack := rfl
@[simp] theorem setSound_dt (b : Byte) (s : State) : (setSound b s).dt = s.dt := rfl
@[simp] theorem setSound_st (b : Byte) (s : State) : (setSound b s).st = b := rfl
@[simp] theorem setSound_tone (b : Byte) (s : State) : (setSound b s).tone = toneUpdate (setStatus s.st b) s.tone := rfl
@[simp] theorem setSound_fb (b : Byte) (s : State) : (setSound b s).fb = s.fb := rfl
@[simp] theorem setSound_mem (b : Byte) (s : State) : (setSound b s).mem = s.mem := rfl
@[simp] theorem setSound_font (b : Byte) (s : State) : (setSound b s).font = s.font := rfl
@[simp] theorem setSound_status (b : Byte) (s : State) : (setSound b s).status = s.status := rfl
@[simp] theorem setSound_fault (b : Byte) (s : State) : (setSound b s).fault = s.fault := rfl
@[simp] theorem setSound_dtStatus (b : Byte) (s : State) : (setSound b s).dtStatus = s.dtStatus := rfl
@[simp] theorem setSound_stStatus (b : Byte) (s : State) : (setSound b s).stStatus = setStatus s.st b := rfl
@[simp] theorem setSound_env (b : Byte) (s : State) : (setSound b s).env = s.env := rfl
@[simp] theorem setSound_byte (b : Byte) (s : State) (a : Nat) : (setSound b s).byte a = s.byte a := rfl
@[simp] theorem setSound_reg (b : Byte) (s : State) (q : RegIx) : (setSound b s).reg q = s.reg q := rfl

/-! `tickTimers` -/

@[simp] theorem tickTimers_v (s : State) : (tickTimers s).v = s.v := rfl
@[simp] theorem tickTimers_i (s : State) : (tickTimers s).i = s.i := rfl
@[simp] theorem tickTimers_pc (s : State) : (tickTimers s).pc = s.pc := rfl
@[simp] theorem tickTimers_stack (s : State) : (tickTimers s).stack = s.stack := rfl
@[simp] theorem tickTimers_dt (s : State) : (tickTimers s).dt = tickValue s.dt := rfl
@[simp] theorem tickTimers_st (s : State) : (tickTimers s).st = tickValue s.st := rfl
@[simp] theorem tickTimers_tone (s : State) : (tickTimers s).tone = toneUpdate (tickStatus s.st) s.tone := rfl
@[simp] theorem tickTimers_fb (s : State) : (tickTimers s).fb = s.fb := rfl
@[simp] theorem tickTimers_mem (s : State) : (tickTimers s).mem = s.mem := rfl
@[simp] theorem tickTimers_font (s : State) : (tickTimers s).font = s.font := rfl
@[simp] theorem tickTimers_status (s : State) : (tickTimers s).status = s.status := rfl
@[simp] theorem tickTimers_fault (s : State) : (tickTimers s).fault = s.fault := rfl
@[simp] theorem tickTimers_dtStatus (s : State) : (tickTimers s).dtStatus = tickStatus s.dt := rfl
@[simp] theorem tickTimers_stStatus (s : State) : (tickTimers s).stStatus = tickStatus s.st := rfl
@[simp] theorem tickTimers_env (s : State) : (tickTimers s).env = s.env := rfl
@[simp] theorem tickTimers_byte (s : State) (a : Nat) : (tickTimers s).byte a = s.byte a := rfl
@[simp] theorem tickTimers_reg (s : State) (q : RegIx) : (tickTimers s).reg q = s.reg q := rfl

/-! `halt` -/

@[simp] theorem halt_v (r : FaultRecord) (s : State) : (halt r s).v = s.v := rfl
@[simp] theorem halt_i (r : FaultRecord) (s : State) : (halt r s).i = s.i := rfl
@[simp] theorem halt_pc (r : FaultRecord) (s : State) : (halt r s).pc = s.pc := rfl
@[simp] theorem halt_stack (r : FaultRecord) (s : State) : (halt r s).stack = s.stack := rfl
@[simp] theorem halt_dt (r : FaultRecord) (s : State) : (halt r s).dt = s.dt := rfl
@[simp] theorem halt_st (r : FaultRecord) (s : State) : (halt r s).st = s.st := rfl
@[simp] theorem halt_tone (r : FaultRecord) (s : State) : (halt r s).tone = s.tone := rfl
@[simp] theorem halt_fb (r : FaultRecord) (s : State) : (halt r s).fb = s.fb := rfl
@[simp] theorem halt_mem (r : FaultRecord) (s : State) : (halt r s).mem = s.mem := rfl
@[simp] theorem halt_font (r : FaultRecord) (s : State) : (halt r s).font = s.font := rfl
@[simp] theorem halt_status (r : FaultRecord) (s : State) : (halt r s).status = .halted := rfl
@[simp] theorem halt_fault (r : FaultRecord) (s : State) : (halt r s).fault = some r := rfl
@[simp] theorem halt_dtStatus (r : FaultRecord) (s : State) : (halt r s).dtStatus = s.dtStatus := rfl
@[simp] theorem halt_stStatus (r : FaultRecord) (s : State) : (halt r s).stStatus = s.stStatus := rfl
@[simp] theorem halt_env (r : FaultRecord) (s : State) : (halt r s).env = s.env := rfl
@[simp] theorem halt_byte (r : FaultRecord) (s : State) (a : Nat) : (halt r s).byte a = s.byte a := rfl
@[simp] theorem halt_reg (r : FaultRecord) (s : State) (q : RegIx) : (halt r s).reg q = s.reg q := rfl

/-! `raise` -/

@[simp] theorem raise_v (k : Fault) (s : State) : (raise k s).v = s.v := rfl
@[simp] theorem raise_i (k : Fault) (s : State) : (raise k s).i = s.i := rfl
@[simp] theorem raise_pc (k : Fault) (s : State) : (raise k s).pc = s.pc := rfl
@[simp] theorem raise_stack (k : Fault) (s : State) : (raise k s).stack = s.stack := rfl
@[simp] theorem raise_dt (k : Fault) (s : State) : (raise k s).dt = s.dt := rfl
@[simp] theorem raise_st (k : Fault) (s : State) : (raise k s).st = s.st := rfl
@[simp] theorem raise_tone (k : Fault) (s : State) : (raise k s).tone = s.tone := rfl
@[simp] theorem raise_fb (k : Fault) (s : State) : (raise k s).fb = s.fb := rfl
@[simp] theorem raise_mem (k : Fault) (s : State) : (raise k s).mem = s.mem := rfl
@[simp] theorem raise_font (k : Fault) (s : State) : (raise k s).font = s.font := rfl
@[simp] theorem raise_status (k : Fault) (s : State) : (raise k s).status = .halted := rfl
@[simp] theorem raise_fault (k : Fault) (s : State) : (raise k s).fault = some (s.executeRecord k) := rfl
@[simp] theorem raise_dtStatus (k : Fault) (s : State) : (raise k s).dtStatus = s.dtStatus := rfl
@[simp] theorem raise_stStatus (k : Fault) (s : State) : (raise k s).stStatus = s.stStatus := rfl
@[simp] theorem raise_env (k : Fault) (s : State) : (raise k s).env = s.env := rfl
@[simp] theorem raise_byte (k : Fault) (s : State) (a : Nat) : (raise k s).byte a = s.byte a := rfl
@[simp] theorem raise_reg (k : Fault) (s : State) (q : RegIx) : (raise k s).reg q = s.reg q := rfl

@[simp] theorem State.setReg_dataAddr (s : State) (r : RegIx) (b : Byte) (k : Nat) : (s.setReg r b).dataAddr k = s.dataAddr k := rfl

/-! `State.setByte` -/

@[simp] theorem State.setByte_v (s : State) (a : Nat) (b : Byte) : (s.setByte a b).v = s.v := rfl
@[simp] theorem State.setByte_i (s : State) (a : Nat) (b : Byte) : (s.setByte a b).i = s.i := rfl
@[simp] theorem State.setByte_pc (s : State) (a : Nat) (b : Byte) : (s.setByte a b).pc = s.pc := rfl
@[simp] theorem State.setByte_stack (s : State) (a : Nat) (b : Byte) : (s.setByte a b).stack = s.stack := rfl
@[simp] theorem State.setByte_dt (s : State) (a : Nat) (b : Byte) : (s.setByte a b).dt = s.dt := rfl
@[simp] theorem State.setByte_st (s : State) (a : Nat) (b : Byte) : (s.setByte a b).st = s.st := rfl
@[simp] theorem State.setByte_tone (s : State) (a : Nat) (b : Byte) : (s.setByte a b).tone = s.tone := rfl
@[simp] theorem State.setByte_fb (s : State) (a : Nat) (b : Byte) : (s.setByte a b).fb = s.fb := rfl
@[simp] theorem State.setByte_mem (s : State) (a : Nat) (b : Byte) : (s.setByte a b).mem = Memory.write s.font s.mem a b := rfl
@[simp] theorem State.setByte_font (s : State) (a : Nat) (b : Byte) : (s.setByte a b).font = s.font := rfl
@[simp] theorem State.setByte_status (s : State) (a : Nat) (b : Byte) : (s.setByte a b).status = s.status := rfl
@[simp] theorem State.setByte_fault (s : State) (a : Nat) (b : Byte) : (s.setByte a b).fault = s.fault := rfl
@[simp] theorem State.setByte_dtStatus (s : State) (a : Nat) (b : Byte) : (s.setByte a b).dtStatus = s.dtStatus := rfl
@[simp] theorem State.setByte_stStatus (s : State) (a : Nat) (b : Byte) : (s.setByte a b).stStatus = s.stStatus := rfl
@[simp] theorem State.setByte_env (s : State) (a : Nat) (b : Byte) : (s.setByte a b).env = s.env := rfl
@[simp] theorem State.setByte_reg (s : State) (a : Nat) (b : Byte) (q : RegIx) : (s.setByte a b).reg q = s.reg q := rfl
@[simp] theorem State.setByte_dataAddr (s : State) (a : Nat) (b : Byte) (k : Nat) : (s.setByte a b).dataAddr k = s.dataAddr k := rfl

/-! `State.startEvent` -/

@[simp] theorem State.startEvent_v (s : State) (rest : List Event) : (s.startEvent rest).v = s.v := rfl
@[simp] theorem State.startEvent_i (s : State) (rest : List Event) : (s.startEvent rest).i = s.i := rfl
@[simp] theorem State.startEvent_pc (s : State) (rest : List Event) : (s.startEvent rest).pc = s.pc := rfl
@[simp] theorem State.startEvent_stack (s : State) (rest : List Event) : (s.startEvent rest).stack = s.stack := rfl
@[simp] theorem State.startEvent_dt (s : State) (rest : List Event) : (s.startEvent rest).dt = s.dt := rfl
@[simp] theorem State.startEvent_st (s : State) (rest : List Event) : (s.startEvent rest).st = s.st := rfl
@[simp] theorem State.startEvent_tone (s : State) (rest : List Event) : (s.startEvent rest).tone = s.tone := rfl
@[simp] theorem State.startEvent_fb (s : State) (rest : List Event) : (s.startEvent rest).fb = s.fb := rfl
@[simp] theorem State.startEvent_mem (s : State) (rest : List Event) : (s.startEvent rest).mem = s.mem := rfl
@[simp] theorem State.startEvent_font (s : State) (rest : List Event) : (s.startEvent rest).font = s.font := rfl
@[simp] theorem State.startEvent_status (s : State) (rest : List Event) : (s.startEvent rest).status = s.status := rfl
@[simp] theorem State.startEvent_fault (s : State) (rest : List Event) : (s.startEvent rest).fault = s.fault := rfl
@[simp] theorem State.startEvent_dtStatus (s : State) (rest : List Event) : (s.startEvent rest).dtStatus = s.dtStatus := rfl
@[simp] theorem State.startEvent_stStatus (s : State) (rest : List Event) : (s.startEvent rest).stStatus = s.stStatus := rfl
@[simp] theorem State.startEvent_env (s : State) (rest : List Event) : (s.startEvent rest).env = { s.env with present := false, pending := rest } := rfl
@[simp] theorem State.startEvent_reg (s : State) (rest : List Event) (q : RegIx) : (s.startEvent rest).reg q = s.reg q := rfl
@[simp] theorem State.startEvent_byte (s : State) (rest : List Event) (a : Nat) : (s.startEvent rest).byte a = s.byte a := rfl

/-! Reads of registers and bytes depend on the register file and on memory alone. -/

theorem State.reg_eq_of_v_eq {s t : State} (h : t.v = s.v) (q : RegIx) : t.reg q = s.reg q := by
  simp only [State.reg, h]

theorem State.byte_eq_of_mem_eq {s t : State} (h : t.mem = s.mem) (hf : t.font = s.font) (a : Nat) :
    t.byte a = s.byte a := by
  simp only [State.byte, h, hf]

end Sys2Proof.Machine
end

