-- ==== Sys2Proof/Laws/Registers.lean ====
section
/-! SUPPORT. What the register writes do, once: setReg, setFlag and setResultFlag through the read of any register; the block V0..Vx. -/

namespace Sys2Proof.Machine

theorem State.reg_setReg (s : State) (r q : RegIx) (b : Byte) :
    (s.setReg r b).reg q = if q = r then b else s.reg q := by
  by_cases h : q = r
  · simp [State.reg, State.setReg, h]
  · have h' : (r : Nat) ≠ q := fun e => h (Fin.ext e.symm)
    simp [State.reg, State.setReg, h, h']

@[simp] theorem State.reg_setReg_same (s : State) (r : RegIx) (b : Byte) : (s.setReg r b).reg r = b := by
  simp [State.reg_setReg]

theorem State.reg_setReg_of_ne (s : State) {r q : RegIx} (b : Byte) (h : q ≠ r) :
    (s.setReg r b).reg q = s.reg q := by
  simp [State.reg_setReg, h]

@[simp] theorem State.reg_setFlag_vf (s : State) (f : Bool) : (s.setFlag f).reg vf = bitByte f := by
  simp [State.setFlag]

theorem State.reg_setFlag_of_ne (s : State) (f : Bool) {q : RegIx} (h : q ≠ vf) :
    (s.setFlag f).reg q = s.reg q := by
  simp [State.setFlag, State.reg_setReg_of_ne, h]

/-- The flag is written second, so it is what VF holds, also when VF is the result register (R141). -/
@[simp] theorem State.reg_setResultFlag_vf (s : State) (x : RegIx) (b : Byte) (f : Bool) :
    (s.setResultFlag x b f).reg vf = bitByte f := by
  simp [State.setResultFlag]

theorem State.reg_setResultFlag_result (s : State) {x : RegIx} (b : Byte) (f : Bool) (h : x ≠ vf) :
    (s.setResultFlag x b f).reg x = b := by
  simp [State.setResultFlag, State.reg_setFlag_of_ne, h]

theorem State.reg_setResultFlag_of_ne (s : State) {x q : RegIx} (b : Byte) (f : Bool) (hx : q ≠ x) (hv : q ≠ vf) :
    (s.setResultFlag x b f).reg q = s.reg q := by
  simp [State.setResultFlag, State.reg_setFlag_of_ne, State.reg_setReg_of_ne, hx, hv]

theorem mem_allRegs (k : RegIx) : k ∈ allRegs := by
  revert k; decide

@[simp] theorem mem_regsUpTo (x k : RegIx) : k ∈ regsUpTo x ↔ k ≤ x := by
  simp [regsUpTo, mem_allRegs]

theorem nodup_regsUpTo (x : RegIx) : (regsUpTo x).Nodup :=
  List.Nodup.filter _ (by decide)

end Sys2Proof.Machine
end

