-- ==== Sys2Proof/Laws/Control.lean ====
section
/-! SUPPORT. What the control primitives can do, once: finish and commit, advance, jump, skipIf, push, pop, fetch, the raised record. -/

namespace Sys2Proof.Machine

@[simp] theorem finish_ok (s t : State) : finish s (.ok t) = t := rfl

@[simp] theorem finish_error (s : State) (k : Fault) : finish s (.error k) = raise k s := rfl

/-- An execute stage ends in its result, or in the halt of its fault in the state it began in (R243). -/
theorem commit_eq_next {s t : State} {r : Except Fault State} (h : commit s r = .next t) :
    r = .ok t ∨ ∃ k, r = .error k ∧ t = raise k s := by
  unfold commit at h
  cases r with
  | ok u => simp only [finish_ok, Host.Outcome.next.injEq] at h; exact .inl (h ▸ rfl)
  | error k => simp only [finish_error, Host.Outcome.next.injEq] at h; exact .inr ⟨k, rfl, h.symm⟩

theorem advance_of_lt {k : Nat} {s : State} (h : s.pc.toNat + k < 4096) :
    advance k s = .ok { s with pc := BitVec.ofNat 12 (s.pc.toNat + k) } :=
  if_neg (by simpa using h)

theorem advance_of_ge {k : Nat} {s : State} (h : 4096 ≤ s.pc.toNat + k) : advance k s = .error .outOfBounds :=
  if_pos (by simpa using h)

theorem advance_cases (k : Nat) (s : State) :
    (s.pc.toNat + k < 4096 ∧ advance k s = .ok { s with pc := BitVec.ofNat 12 (s.pc.toNat + k) }) ∨
    (4096 ≤ s.pc.toNat + k ∧ advance k s = .error .outOfBounds) := by
  rcases Nat.lt_or_ge (s.pc.toNat + k) 4096 with h | h
  · exact .inl ⟨h, advance_of_lt h⟩
  · exact .inr ⟨h, advance_of_ge h⟩

theorem jump_of_lt {a : Nat} {s : State} (h : a < 4096) : jump a s = .ok { s with pc := BitVec.ofNat 12 a } :=
  if_neg (by simpa using h)

theorem jump_of_ge {a : Nat} {s : State} (h : 4096 ≤ a) : jump a s = .error .outOfBounds :=
  if_pos (by simpa using h)

/-- A jump to a 12-bit target never faults (R122). -/
theorem jump_toNat (a : Addr) (s : State) : jump a.toNat s = .ok { s with pc := a } := by
  rw [jump_of_lt a.isLt, BitVec.ofNat_toNat, BitVec.setWidth_eq]

theorem jump_cases (a : Nat) (s : State) :
    (a < 4096 ∧ jump a s = .ok { s with pc := BitVec.ofNat 12 a }) ∨
    (4096 ≤ a ∧ jump a s = .error .outOfBounds) := by
  rcases Nat.lt_or_ge a 4096 with h | h
  · exact .inl ⟨h, jump_of_lt h⟩
  · exact .inr ⟨h, jump_of_ge h⟩

/-- A conditional skip does nothing, advances `pc` by 2, or leaves memory (R123). -/
theorem skipIf_cases (c : Bool) (s : State) :
    (c = false ∧ skipIf c s = .ok s) ∨
    (c = true ∧ s.pc.toNat + 2 < 4096 ∧ skipIf c s = .ok { s with pc := BitVec.ofNat 12 (s.pc.toNat + 2) }) ∨
    (c = true ∧ 4096 ≤ s.pc.toNat + 2 ∧ skipIf c s = .error .outOfBounds) := by
  cases c with
  | false => exact .inl ⟨rfl, rfl⟩
  | true =>
    rcases advance_cases 2 s with ⟨h, e⟩ | ⟨h, e⟩
    · exact .inr (.inl ⟨rfl, h, e⟩)
    · exact .inr (.inr ⟨rfl, h, e⟩)

theorem push_cases (a : Word) (s : State) :
    (s.stack.length < 64 ∧ push a s = .ok { s with stack := s.stack ++ [a] }) ∨
    (64 ≤ s.stack.length ∧ push a s = .error .stackOverflow) := by
  rcases Nat.lt_or_ge s.stack.length 64 with h | h
  · exact .inl ⟨h, if_neg (by simpa using h)⟩
  · exact .inr ⟨h, if_pos (by simpa using h)⟩

theorem pop_of_nil {s : State} (h : s.stack = []) : pop s = .error .stackUnderflow := by
  simp [pop, h]

theorem pop_of_concat {s : State} {below : List Word} {a : Word} (h : s.stack = below ++ [a]) :
    pop s = .ok (a, { s with stack := below }) := by
  simp [pop, h]

theorem pop_cases (s : State) :
    (s.stack = [] ∧ pop s = .error .stackUnderflow) ∨
    (∃ below a, s.stack = below ++ [a] ∧ pop s = .ok (a, { s with stack := below })) := by
  rcases List.eq_nil_or_concat s.stack with h | ⟨below, a, h⟩
  · exact .inl ⟨h, pop_of_nil h⟩
  · have h' : s.stack = below ++ [a] := by simpa using h
    exact .inr ⟨below, a, h', pop_of_concat h'⟩

/-- The fetch fails exactly at `pc >= 4094` and otherwise advances `pc` by 2 and nothing else (R120). -/
theorem fetch_of_ge {s : State} (h : 4094 ≤ s.pc.toNat) : fetch s = none := if_pos h

theorem fetch_of_lt {s : State} (h : s.pc.toNat < 4094) :
    fetch s = some (s.byte s.pc.toNat, s.byte (s.pc.toNat + 1), { s with pc := BitVec.ofNat 12 (s.pc.toNat + 2) }) :=
  if_neg (by omega)

/-- A 12-bit sum that stays inside memory does not wrap. -/
theorem toNat_ofNat_addr {n : Nat} (h : n < 4096) : (BitVec.ofNat 12 n).toNat = n := by
  simp; omega

theorem ofNat_pc_add_two (pc : Addr) : BitVec.ofNat 12 (pc.toNat + 2) = pc + 2 := by
  apply BitVec.eq_of_toNat_eq; simp

theorem pc_add_two_sub_two (pc : Addr) : pc + 2 - 2 = pc := by
  apply BitVec.eq_of_toNat_eq
  have := pc.isLt
  simp

end Sys2Proof.Machine
end

