-- ==== Sys2Proof/Laws/Decode.lean ====
section
/-! SUPPORT. The fields of a word built by each encoding format (30_encoding.md R92, R93), and a word from its two bytes. -/

namespace Sys2Proof

theorem toNat_encNNN (c : BitVec 4) (nnn : Addr) : (encNNN c nnn).toNat = c.toNat * 4096 + nnn.toNat := by
  have h := nnn.isLt
  unfold encNNN
  rw [BitVec.toNat_append, Nat.shiftLeft_eq, Nat.mul_comm, ← Nat.two_pow_add_eq_or_of_lt h, Nat.mul_comm]

theorem toNat_encXNN (c : BitVec 4) (x : RegIx) (nn : Byte) :
    (encXNN c x nn).toNat = c.toNat * 4096 + x.val * 256 + nn.toNat := by
  have h := nn.isLt
  have hx := x.isLt
  unfold encXNN
  rw [BitVec.toNat_append, BitVec.toNat_append, Nat.shiftLeft_eq, Nat.shiftLeft_eq, Nat.mul_comm,
    ← Nat.two_pow_add_eq_or_of_lt h, Nat.mul_comm c.toNat,
    ← Nat.two_pow_add_eq_or_of_lt (show (BitVec.ofFin x : BitVec 4).toNat < 2 ^ 4 from hx)]
  show 2 ^ 8 * (2 ^ 4 * c.toNat + x.val) + nn.toNat = _
  omega

theorem toNat_encXYN (c : BitVec 4) (x y : RegIx) (n : BitVec 4) :
    (encXYN c x y n).toNat = c.toNat * 4096 + x.val * 256 + y.val * 16 + n.toNat := by
  have hn := n.isLt
  have hx := x.isLt
  have hy := y.isLt
  have e : encXYN c x y n = encXNN c x ((BitVec.ofFin y : BitVec 4) ++ n) := rfl
  rw [e, toNat_encXNN, BitVec.toNat_append, Nat.shiftLeft_eq, Nat.mul_comm (BitVec.toNat _) (2 ^ 4),
    ← Nat.two_pow_add_eq_or_of_lt hn]
  show _ + (2 ^ 4 * y.val + n.toNat) = _
  omega

/-! The fields in numbers (R92). -/

theorem toNat_nibble0 (w : Word) : (nibble0 w).toNat = w.toNat / 4096 := by
  have := w.isLt
  simp [nibble0, BitVec.extractLsb'_toNat, Nat.shiftRight_eq_div_pow]
  omega

theorem val_fieldX (w : Word) : (fieldX w).val = w.toNat / 256 % 16 := by
  simp [fieldX, Nat.shiftRight_eq_div_pow]

theorem val_fieldY (w : Word) : (fieldY w).val = w.toNat / 16 % 16 := by
  simp [fieldY, Nat.shiftRight_eq_div_pow]

theorem toNat_fieldN (w : Word) : (fieldN w).toNat = w.toNat % 16 := by
  simp [fieldN]

theorem toNat_fieldNN (w : Word) : (fieldNN w).toNat = w.toNat % 256 := by
  simp [fieldNN]

theorem toNat_fieldNNN (w : Word) : (fieldNNN w).toNat = w.toNat % 4096 := by
  simp [fieldNNN]

theorem toNat_msbOf (w : Word) : (msbOf w).toNat = w.toNat / 256 := by
  have := w.isLt
  simp [msbOf, Nat.shiftRight_eq_div_pow]
  omega

theorem toNat_lsbOf (w : Word) : (lsbOf w).toNat = w.toNat % 256 := by
  simp [lsbOf]

theorem toNat_append_bytes (msb lsb : Byte) : (msb ++ lsb : Word).toNat = msb.toNat * 256 + lsb.toNat := by
  rw [BitVec.toNat_append, Nat.shiftLeft_eq, Nat.mul_comm, ← Nat.two_pow_add_eq_or_of_lt lsb.isLt]

/-- A word is its two bytes, most significant first (R67, R91). -/
theorem msbOf_append_lsbOf (w : Word) : (msbOf w ++ lsbOf w : Word) = w := by
  apply BitVec.eq_of_toNat_eq
  rw [toNat_append_bytes, toNat_msbOf, toNat_lsbOf]
  omega

end Sys2Proof
end

