-- ==== Sys2Proof/Laws/Events.lean ====
section
/-! SUPPORT. The start of an event: nothing but the boundary changes, and of the boundary neither the inputs, the repeated events nor the first reset (log 6). Then the step, event by event. -/

namespace Sys2Proof.Machine

/-- All the start of an event can do to the state. -/
theorem nextEvent_frame (s : State) :
    (nextEvent s).2 = { s with env := (nextEvent s).2.env } ∧ (nextEvent s).2.env.hasReset = s.env.hasReset ∧
      (nextEvent s).2.env.inputs = s.env.inputs ∧ (nextEvent s).2.env.repeated = s.env.repeated := by
  unfold nextEvent
  split
  · exact ⟨rfl, rfl, rfl, rfl⟩
  · split <;> exact ⟨rfl, rfl, rfl, rfl⟩

/-- The free event is one of the three (R34). -/
theorem freeEvent_cases (n : Nat) :
    (∃ program, freeEvent n = .reset program) ∨ freeEvent n = .timerTick ∨ freeEvent n = .cpuStep (freeInputs n) := by
  unfold freeEvent
  split
  · exact .inl ⟨_, rfl⟩
  · split
    · exact .inr (.inl rfl)
    · exact .inr (.inr rfl)

/-- A step on a `cpu_step` (R120). -/
theorem step_of_cpuStep {s s1 : State} {inp : Inputs} (h : nextEvent s = (.cpuStep inp, s1))
    (hr : s1.env.hasReset = true) : step s = cpuStep (s1.withInputs inp) := by
  simp [step, h, runEvent, hr]

/-- A step on a `timer_tick` (R213). -/
theorem step_of_timerTick {s s1 : State} (h : nextEvent s = (.timerTick, s1)) (hr : s1.env.hasReset = true) :
    step s = .next (timerTick s1) := by
  simp [step, h, runEvent, hr]

/-- A step on a `reset`, also before the first one (R280). -/
theorem step_of_reset {s s1 : State} {program : List Byte} (h : nextEvent s = (.reset program, s1)) :
    step s = .next (resetEvent program s1) := by
  simp [step, h, runEvent]

end Sys2Proof.Machine
end

