-- ==== Sys2Proof/Laws/Framebuffer.lean ====
section
/-! SUPPORT. The framebuffer pixel by pixel: set and read, XorPixel, and what drawing a row and a sprite does (43_display.md R191, R193, R194). -/

namespace Sys2Proof.Machine

theorem FrameBuffer.pixel_of_lt (fb : FrameBuffer) {r c : Nat} (hr : r < 32) (hc : c < 64) :
    fb.pixel r c = fb[r][c] := by
  simp [FrameBuffer.pixel, hr, hc]

theorem FrameBuffer.pixel_outside (fb : FrameBuffer) {r c : Nat} (h : ¬(r < 32 ∧ c < 64)) :
    fb.pixel r c = false := by
  simp [FrameBuffer.pixel, h]

theorem FrameBuffer.pixel_setPixel (fb : FrameBuffer) {r c : Nat} (b : Bool) (hr : r < 32) (hc : c < 64) (p q : Nat) :
    (fb.setPixel r c b).pixel p q = if p = r ∧ q = c then b else fb.pixel p q := by
  unfold FrameBuffer.setPixel
  rw [dif_pos ⟨hr, hc⟩]
  by_cases hpq : p < 32 ∧ q < 64
  · rw [FrameBuffer.pixel_of_lt _ hpq.1 hpq.2, FrameBuffer.pixel_of_lt _ hpq.1 hpq.2]
    by_cases hp : p = r
    · subst hp
      by_cases hq : q = c
      · subst hq; simp
      · have : c ≠ q := fun e => hq e.symm
        simp [hq, this]
    · have : r ≠ p := fun e => hp e.symm
      simp [hp, this]
  · rw [FrameBuffer.pixel_outside _ hpq, FrameBuffer.pixel_outside _ hpq]
    have : ¬(p = r ∧ q = c) := fun e => hpq ⟨e.1 ▸ hr, e.2 ▸ hc⟩
    rw [if_neg this]

/-- Two grids with the same pixels are the same grid. -/
theorem FrameBuffer.ext_pixel {f g : FrameBuffer} (h : ∀ r c, f.pixel r c = g.pixel r c) : f = g := by
  apply Vector.ext
  intro r hr
  apply Vector.ext
  intro c hc
  have := h r c
  rwa [FrameBuffer.pixel_of_lt _ hr hc, FrameBuffer.pixel_of_lt _ hr hc] at this

@[simp] theorem pixel_clearGrid (r c : Nat) : FrameBuffer.pixel clearGrid r c = false := by
  by_cases h : r < 32 ∧ c < 64
  · rw [FrameBuffer.pixel_of_lt _ h.1 h.2]; simp [clearGrid]
  · exact FrameBuffer.pixel_outside _ h

theorem xorPixel_of_lt {r c : Nat} (fb : FrameBuffer) (hr : r < 32) (hc : c < 64) :
    xorPixel r c fb = .ok (fb.pixel r c, fb.setPixel r c (!fb.pixel r c)) :=
  if_neg (by simp; omega)

theorem spriteColumn_lt (cx j : Nat) : spriteColumn cx j < 64 := Nat.mod_lt _ (by decide)

/-- The 8 columns of a sprite row are distinct (R194). -/
theorem spriteColumn_inj {cx j k : Nat} (hj : j < 8) (hk : k < 8) (h : spriteColumn cx j = spriteColumn cx k) :
    j = k := by
  simp only [spriteColumn, Config.fbW] at h
  omega

/-- The columns on which the pixels `js` of the row byte `b` are set. -/
def rowCovers (cx : Nat) (b : Byte) (js : List Nat) (c : Nat) : Prop :=
  ∃ j ∈ js, spritePixel b j = true ∧ c = spriteColumn cx j

/-- Drawing the pixels of a row cannot fault inside the grid: it inverts the covered pixels of that row, leaves every other pixel, and reports whether a covered pixel was set. -/
theorem drawPixels_spec (row cx : Nat) (b : Byte) (hrow : row < 32) (js : List Nat)
    (h8 : ∀ j ∈ js, j < 8) (hnd : js.Nodup) (g : FrameBuffer × Bool) :
    ∃ g', drawPixels row cx b js g = .ok g' ∧
      (∀ c, rowCovers cx b js c → g'.1.pixel row c = !g.1.pixel row c) ∧
      (∀ r c, ¬(r = row ∧ rowCovers cx b js c) → g'.1.pixel r c = g.1.pixel r c) ∧
      (g'.2 = true ↔ g.2 = true ∨ ∃ c, rowCovers cx b js c ∧ g.1.pixel row c = true) := by
  induction js generalizing g with
  | nil => exact ⟨g, rfl, by simp [rowCovers], by simp, by simp [rowCovers]⟩
  | cons j js ih =>
    obtain ⟨hj, hnd⟩ := List.nodup_cons.1 hnd
    have hj8 := h8 j (by simp)
    have h8' : ∀ k ∈ js, k < 8 := fun k hk => h8 k (by simp [hk])
    by_cases hb : spritePixel b j = true
    · have hc := spriteColumn_lt cx j
      have hno : ¬ rowCovers cx b js (spriteColumn cx j) := by
        rintro ⟨k, hk, -, e⟩
        exact hj (spriteColumn_inj hj8 (h8' k hk) e ▸ hk)
      have hcov : ∀ c, rowCovers cx b (j :: js) c ↔ c = spriteColumn cx j ∨ rowCovers cx b js c := by
        intro c
        simp [rowCovers, hb]
      obtain ⟨g', h1, h2, h3, h4⟩ := ih h8' hnd
        (g.1.setPixel row (spriteColumn cx j) (!g.1.pixel row (spriteColumn cx j)),
          g.2 || g.1.pixel row (spriteColumn cx j))
      refine ⟨g', ?_, ?_, ?_, ?_⟩
      · rw [drawPixels, if_pos hb, xorPixel_of_lt _ hrow hc]; exact h1
      · intro c hcc
        rcases (hcov c).1 hcc with rfl | h
        · rw [h3 _ _ (fun e => hno e.2)]
          simp [FrameBuffer.pixel_setPixel _ _ hrow hc]
        · have : c ≠ spriteColumn cx j := fun e => hno (e ▸ h)
          rw [h2 c h]
          simp [FrameBuffer.pixel_setPixel _ _ hrow hc, this]
      · intro r c hn
        have hn1 : ¬(r = row ∧ c = spriteColumn cx j) := fun e => hn ⟨e.1, (hcov c).2 (.inl e.2)⟩
        have hn2 : ¬(r = row ∧ rowCovers cx b js c) := fun e => hn ⟨e.1, (hcov c).2 (.inr e.2)⟩
        rw [h3 r c hn2]
        simp [FrameBuffer.pixel_setPixel _ _ hrow hc, hn1]
      · rw [h4]
        constructor
        · rintro (h | ⟨c, h, hp⟩)
          · rcases Bool.or_eq_true_iff.1 h with h | h
            · exact .inl h
            · exact .inr ⟨_, (hcov _).2 (.inl rfl), h⟩
          · have : c ≠ spriteColumn cx j := fun e => hno (e ▸ h)
            refine .inr ⟨c, (hcov c).2 (.inr h), ?_⟩
            simpa [FrameBuffer.pixel_setPixel _ _ hrow hc, this] using hp
        · rintro (h | ⟨c, h, hp⟩)
          · exact .inl (by simp [h])
          · rcases (hcov c).1 h with rfl | h
            · exact .inl (by simp [hp])
            · have : c ≠ spriteColumn cx j := fun e => hno (e ▸ h)
              exact .inr ⟨c, h, by simpa [FrameBuffer.pixel_setPixel _ _ hrow hc, this] using hp⟩
    · have hcov : ∀ c, rowCovers cx b (j :: js) c ↔ rowCovers cx b js c := by
        intro c
        simp [rowCovers, hb]
      obtain ⟨g', h1, h2, h3, h4⟩ := ih h8' hnd g
      refine ⟨g', ?_, ?_, ?_, ?_⟩
      · rw [drawPixels, if_neg hb]; exact h1
      · exact fun c h => h2 c ((hcov c).1 h)
      · exact fun r c h => h3 r c (fun e => h ⟨e.1, (hcov c).2 e.2⟩)
      · simpa only [hcov] using h4

/-- The pixels on which the sprite rows `rs`, read from `base` on, are set. -/
def spriteCovers (mem : Nat → Byte) (base cx cy : Nat) (rs : List Nat) (r c : Nat) : Prop :=
  ∃ k ∈ rs, r = cy + k ∧ rowCovers cx (mem (base + k)) (List.range 8) c

/-- Drawing sprite rows inside the grid cannot fault: it inverts the covered pixels, leaves every other pixel, and reports whether a covered pixel was set. -/
theorem drawRows_spec (mem : Nat → Byte) (base cx cy : Nat) (rs : List Nat)
    (hlt : ∀ k ∈ rs, cy + k < 32) (hnd : rs.Nodup) (g : FrameBuffer × Bool) :
    ∃ g', drawRows mem base cx cy rs g = .ok g' ∧
      (∀ r c, spriteCovers mem base cx cy rs r c → g'.1.pixel r c = !g.1.pixel r c) ∧
      (∀ r c, ¬spriteCovers mem base cx cy rs r c → g'.1.pixel r c = g.1.pixel r c) ∧
      (g'.2 = true ↔ g.2 = true ∨ ∃ r c, spriteCovers mem base cx cy rs r c ∧ g.1.pixel r c = true) := by
  induction rs generalizing g with
  | nil => exact ⟨g, rfl, by simp [spriteCovers], by simp, by simp [spriteCovers]⟩
  | cons k rs ih =>
    obtain ⟨hk, hnd⟩ := List.nodup_cons.1 hnd
    obtain ⟨g1, p1, p2, p3, p4⟩ := drawPixels_spec (cy + k) cx (mem (base + k)) (hlt k (by simp))
      (List.range 8) (by simp) List.nodup_range g
    obtain ⟨g', h1, h2, h3, h4⟩ := ih (fun q hq => hlt q (by simp [hq])) hnd g1
    have hcov : ∀ r c, spriteCovers mem base cx cy (k :: rs) r c ↔
        (r = cy + k ∧ rowCovers cx (mem (base + k)) (List.range 8) c) ∨ spriteCovers mem base cx cy rs r c := by
      intro r c
      simp [spriteCovers]
    have hno : ∀ r c, spriteCovers mem base cx cy rs r c → r ≠ cy + k := by
      rintro r c ⟨q, hq, rfl, -⟩ e
      have : q = k := by omega
      exact hk (this ▸ hq)
    refine ⟨g', ?_, ?_, ?_, ?_⟩
    · rw [drawRows]
      show (drawPixels (cy + k) cx (mem (base + k)) (List.range 8) g).bind _ = _
      rw [p1]
      exact h1
    · intro r c h
      rcases (hcov r c).1 h with ⟨rfl, hr⟩ | h
      · rw [h3 _ _ (fun e => hno _ _ e rfl), p2 c hr]
      · rw [h2 r c h, p3 r c (fun e => hno r c h e.1)]
    · intro r c h
      rw [h3 r c (fun e => h ((hcov r c).2 (.inr e))), p3 r c (fun e => h ((hcov r c).2 (.inl e)))]
    · rw [h4, p4]
      constructor
      · rintro ((h | ⟨c, h, hp⟩) | ⟨r, c, h, hp⟩)
        · exact .inl h
        · exact .inr ⟨_, c, (hcov _ c).2 (.inl ⟨rfl, h⟩), hp⟩
        · refine .inr ⟨r, c, (hcov r c).2 (.inr h), ?_⟩
          rwa [p3 r c (fun e => hno r c h e.1)] at hp
      · rintro (h | ⟨r, c, h, hp⟩)
        · exact .inl (.inl h)
        · rcases (hcov r c).1 h with ⟨rfl, hr⟩ | h
          · exact .inl (.inr ⟨c, hr, hp⟩)
          · exact .inr ⟨r, c, h, by rwa [p3 r c (fun e => hno r c h e.1)]⟩

/-- The sprite fits when it has no row, or its last byte and its last row are in range (R194). -/
theorem spriteFits_iff (base cy n : Nat) :
    spriteFits base cy n = true ↔ n = 0 ∨ (base + (n - 1) < 4096 ∧ cy + (n - 1) < 32) := by
  simp [spriteFits]

end Sys2Proof.Machine
end

