-- ==== Sys2Proof/Laws/Keypad.lean ====
section
/-! SUPPORT. The key poll: which keys it can report, and all it can do (45_keypad.md R234). -/

namespace Sys2Proof.Machine

theorem Inputs.mem_pressed (inp : Inputs) (k : Nat) :
    k ∈ inp.pressed ↔ k < 16 ∧ inp.keys.getLsbD k = true := by
  simp [Inputs.pressed]

theorem Inputs.pressed_eq_nil_iff (inp : Inputs) : inp.pressed = [] ↔ inp.keys = 0 := by
  constructor
  · intro h
    apply BitVec.eq_of_getLsbD_eq
    intro k hk
    by_contra hc
    have : k ∈ inp.pressed := (inp.mem_pressed k).2 ⟨hk, by simpa using hc⟩
    simp [h] at this
  · intro h
    simp [Inputs.pressed, h]

/-- The key reported is any pressed key, and none only when none is pressed. -/
theorem Inputs.anyKey_cases (inp : Inputs) :
    (inp.keys = 0 ∧ inp.anyKey = none) ∨
    (∃ k, inp.keys ≠ 0 ∧ inp.anyKey = some k ∧ k < 16 ∧ inp.keys.getLsbD k = true) := by
  by_cases h : inp.pressed = []
  · exact .inl ⟨inp.pressed_eq_nil_iff.1 h, by simp [Inputs.anyKey, h]⟩
  · have hlt : inp.keyPick % inp.pressed.length < inp.pressed.length :=
      Nat.mod_lt _ (List.length_pos_iff.2 h)
    obtain ⟨hk, hp⟩ := (inp.mem_pressed _).1 (List.getElem_mem hlt)
    exact .inr ⟨_, fun e => h (inp.pressed_eq_nil_iff.2 e), List.getElem?_eq_getElem hlt, hk, hp⟩

/-- Every pressed key is what some answer of the keypad reports (R233, KEY_CHOICE). -/
theorem Inputs.anyKey_reaches (inp : Inputs) {k : Nat} (hk : k < 16) (hp : inp.keys.getLsbD k = true) :
    ∃ pick : Nat, ({ inp with keyPick := pick } : Inputs).anyKey = some k := by
  obtain ⟨n, hn, e⟩ := List.getElem_of_mem ((inp.mem_pressed k).2 ⟨hk, hp⟩)
  refine ⟨n, ?_⟩
  show inp.pressed[n % inp.pressed.length]? = some k
  rw [Nat.mod_eq_of_lt hn, List.getElem?_eq_getElem hn, e]

/-- All a key poll can do (R234). -/
theorem keyPoll_cases (x : RegIx) (s : State) :
    (s.env.inputs.keys = 0 ∧ keyPoll x s = { s with status := .waitKey x }) ∨
    (∃ k : Nat, s.env.inputs.keys ≠ 0 ∧ k < 16 ∧ s.env.inputs.keys.getLsbD k = true ∧
      keyPoll x s = { s.setReg x (BitVec.ofNat 8 k) with status := .running }) := by
  rcases s.env.inputs.anyKey_cases with ⟨h, e⟩ | ⟨k, h, e, hk, hp⟩
  · exact .inl ⟨h, by simp [keyPoll, e]⟩
  · exact .inr ⟨k, h, hk, hp, by simp [keyPoll, e]⟩

/-- A key poll that finds a key reports that very key (R234). -/
theorem keyPoll_reg_of_anyKey (x : RegIx) {s : State} {k : Nat} (h : s.env.inputs.anyKey = some k) :
    (keyPoll x s).reg x = BitVec.ofNat 8 k := by
  simp only [keyPoll, h]
  exact State.reg_setReg_same _ _ _

theorem keyLine_cases (k : Nat) (s : State) :
    (k < 16 ∧ keyLine k s = .ok (s.env.inputs.keys.getLsbD k)) ∨ (16 ≤ k ∧ keyLine k s = .error .outOfBounds) := by
  rcases Nat.lt_or_ge k 16 with h | h
  · exact .inl ⟨h, if_neg (by simpa using h)⟩
  · exact .inr ⟨h, if_pos (by simpa using h)⟩

end Sys2Proof.Machine
end

