-- ==== Sys2Proof/Laws/Memory.lean ====
section
/-! SUPPORT. The laws of memory: read after write, the canonical form kept by every operation, and what the block transfers do. -/

namespace Sys2Proof.Machine

theorem Memory.read_filter_ne (font : FontTable) (m : Memory) (a b : Nat) :
    Memory.read font (m.filter (fun c => c.1 ≠ a)) b = if b = a then resetByte font a else Memory.read font m b := by
  induction m with
  | nil => by_cases h : b = a <;> simp [Memory.read, h]
  | cons c m ih =>
    by_cases hc : c.1 = a
    · rw [List.filter_cons_of_neg (by simp [hc]), ih]
      by_cases h : b = a
      · simp [h]
      · have : b ≠ c.1 := fun e => h (e.trans hc)
        simp [h, Memory.read, this]
    · rw [List.filter_cons_of_pos (by simp [hc])]
      by_cases h : b = a
      · have : ¬ a = c.1 := fun e => hc e.symm
        subst h
        simpa [Memory.read, this] using ih
      · by_cases hb : b = c.1
        · simp [Memory.read, hb, hc]
        · simpa [Memory.read, hb, h] using ih

theorem Memory.read_insert (font : FontTable) (m : Memory) (a b : Nat) (v : Byte) :
    Memory.read font (m.insert a v) b = if b = a then v else Memory.read font m b := by
  induction m with
  | nil => rfl
  | cons c m ih =>
    by_cases h1 : a < c.1
    · rw [Memory.insert, if_pos h1]; rfl
    · by_cases h2 : a = c.1
      · rw [Memory.insert, if_neg h1, if_pos h2]
        by_cases h : b = a
        · simp [Memory.read, h]
        · have : ¬ b = c.1 := h2 ▸ h
          simp [Memory.read, h, this]
      · rw [Memory.insert, if_neg h1, if_neg h2]
        by_cases hb : b = c.1
        · have : ¬ b = a := fun e => h2 (e.symm.trans hb)
          rw [if_neg this, Memory.read, Memory.read, if_pos hb, if_pos hb]
        · rw [Memory.read, Memory.read, if_neg hb, if_neg hb, ih]

/-- Read after write, at every address. -/
theorem Memory.read_write (font : FontTable) (m : Memory) (a b : Nat) (v : Byte) :
    Memory.read font (Memory.write font m a v) b = if b = a then v else Memory.read font m b := by
  unfold Memory.write
  split_ifs with hv h h
  · rw [Memory.read_filter_ne]; simp [h, hv]
  · rw [Memory.read_filter_ne]; simp [h]
  · rw [Memory.read_insert]; simp [h]
  · rw [Memory.read_insert]; simp [h]

@[simp] theorem Memory.read_write_same (font : FontTable) (m : Memory) (a : Nat) (v : Byte) : Memory.read font (Memory.write font m a v) a = v := by
  simp [Memory.read_write]

theorem Memory.read_write_of_ne (font : FontTable) (m : Memory) {a b : Nat} (v : Byte) (h : b ≠ a) :
    Memory.read font (Memory.write font m a v) b = Memory.read font m b := by
  simp [Memory.read_write, h]

theorem Memory.mem_insert {m : Memory} {a : Nat} {v : Byte} {d : Host.Cell} (h : d ∈ m.insert a v) :
    d = (a, v) ∨ d ∈ m := by
  induction m with
  | nil => simpa [Memory.insert] using h
  | cons c m ih =>
    unfold Memory.insert at h
    split_ifs at h with h1 h2
    · simpa using h
    · simp only [List.mem_cons] at h ⊢; tauto
    · simp only [List.mem_cons] at h ⊢
      rcases h with h | h
      · exact .inr (.inl h)
      · rcases ih h with h | h <;> tauto

theorem Memory.pairwise_insert {m : Memory} (a : Nat) (v : Byte)
    (h : m.Pairwise (fun c d => c.1 < d.1)) : (m.insert a v).Pairwise (fun c d => c.1 < d.1) := by
  induction m with
  | nil => simp [Memory.insert]
  | cons c m ih =>
    obtain ⟨hc, hm⟩ := List.pairwise_cons.1 h
    unfold Memory.insert
    split_ifs with h1 h2
    · refine List.pairwise_cons.2 ⟨fun d hd => ?_, h⟩
      rcases List.mem_cons.1 hd with rfl | hd
      · exact h1
      · exact Nat.lt_trans h1 (hc d hd)
    · exact List.pairwise_cons.2 ⟨fun d hd => by have := hc d hd; simpa [h2] using this, hm⟩
    · refine List.pairwise_cons.2 ⟨fun d hd => ?_, ih hm⟩
      rcases Memory.mem_insert hd with rfl | hd
      · show c.1 < a
        omega
      · exact hc d hd

/-- A write inside memory keeps the canonical form. -/
theorem Memory.wf_write {font : FontTable} {m : Memory} {a : Nat} (v : Byte) (ha : a < 4096) (h : Memory.wf font m) :
    Memory.wf font (Memory.write font m a v) := by
  unfold Memory.write
  split_ifs with hv
  · exact ⟨h.1.filter _, fun c hc => h.2 c (List.mem_of_mem_filter hc)⟩
  · refine ⟨Memory.pairwise_insert a v h.1, fun c hc => ?_⟩
    rcases Memory.mem_insert hc with rfl | hc
    · exact ⟨ha, hv⟩
    · exact h.2 c hc

theorem Memory.wf_writeBytes {font : FontTable} {m : Memory} (bs : List Byte) (a : Nat) (ha : a + bs.length ≤ 4096) (h : Memory.wf font m) :
    Memory.wf font (Memory.writeBytes font m a bs) := by
  induction bs generalizing m a with
  | nil => exact h
  | cons b bs ih =>
    simp only [List.length_cons] at ha
    exact ih (a + 1) (by omega) (Memory.wf_write b (by omega) h)

/-- The bytes of a load, in order, and every other byte as before (R82). -/
theorem Memory.read_writeBytes (font : FontTable) (m : Memory) (bs : List Byte) (a b : Nat) :
    Memory.read font (Memory.writeBytes font m a bs) b =
      if h : a ≤ b ∧ b < a + bs.length then bs[b - a]'(by omega) else Memory.read font m b := by
  induction bs generalizing m a with
  | nil =>
    have : ¬(a ≤ b ∧ b < a + ([] : List Byte).length) := by simp
    rw [dif_neg this]; rfl
  | cons v bs ih =>
    show Memory.read font (Memory.writeBytes font (Memory.write font m a v) (a + 1) bs) b = _
    rw [ih]
    by_cases hb : b = a
    · subst hb; simp
    · by_cases h : a + 1 ≤ b ∧ b < a + 1 + bs.length
      · have h2 : a ≤ b ∧ b < a + (v :: bs).length := by simp only [List.length_cons]; omega
        rw [dif_pos h, dif_pos h2]
        have e : b - a = (b - (a + 1)) + 1 := by omega
        simp [e]
      · have h2 : ¬(a ≤ b ∧ b < a + (v :: bs).length) := by simp only [List.length_cons]; omega
        rw [dif_neg h, dif_neg h2, Memory.read_write_of_ne _ _ _ hb]

/-- Read after write in a state. -/
theorem State.byte_setByte (s : State) (a b : Nat) (v : Byte) :
    (s.setByte a v).byte b = if b = a then v else s.byte b := Memory.read_write s.font s.mem a b v

@[simp] theorem State.byte_setByte_same (s : State) (a : Nat) (v : Byte) : (s.setByte a v).byte a = v := by
  simp [State.byte_setByte]

/-! The access primitives (R62, R63). -/

theorem memRead_eq_ok {a : Nat} {s : State} {b : Byte} (h : memRead a s = .ok b) : a < 4096 ∧ b = s.byte a := by
  unfold memRead at h
  split_ifs at h with hc
  simp only [Config.memSize, Except.ok.injEq] at h hc
  exact ⟨by omega, h.symm⟩

theorem memRead_of_lt {a : Nat} {s : State} (h : a < 4096) : memRead a s = .ok (s.byte a) :=
  if_neg (by simpa using h)

theorem memWrite_eq_ok {a : Nat} {b : Byte} {s t : State} (h : memWrite a b s = .ok t) :
    a < 4096 ∧ t = s.setByte a b := by
  unfold memWrite at h
  split_ifs at h with hc
  simp only [Config.memSize, Except.ok.injEq] at h hc
  exact ⟨by omega, h.symm⟩

theorem memWrite_of_lt {a : Nat} {b : Byte} {s : State} (h : a < 4096) :
    memWrite a b s = .ok (s.setByte a b) :=
  if_neg (by simpa using h)

/-! The block transfers (R175, R176). -/

/-- Storing registers whose addresses lie in memory succeeds: the addresses of the list receive the registers, every other byte and every other field is as before, and the canonical form is kept. -/
theorem storeRegs_spec (ks : List RegIx) (s : State) (hlt : ∀ k ∈ ks, s.dataAddr k < 4096) (hnd : ks.Nodup) :
    ∃ m, storeRegs ks s = .ok { s with mem := m } ∧
      (∀ k ∈ ks, Memory.read s.font m (s.dataAddr k) = s.reg k) ∧
      (∀ a, (∀ k ∈ ks, a ≠ s.dataAddr k) → Memory.read s.font m a = s.byte a) ∧
      (Memory.wf s.font s.mem → Memory.wf s.font m) := by
  induction ks generalizing s with
  | nil => exact ⟨s.mem, rfl, by simp, fun _ _ => rfl, id⟩
  | cons k ks ih =>
    obtain ⟨hk, hnd⟩ := List.nodup_cons.1 hnd
    have h0 := hlt k (by simp)
    obtain ⟨m, h1, h2, h3, h4⟩ := ih (s.setByte (s.dataAddr k) (s.reg k))
      (fun q hq => hlt q (by simp [hq])) hnd
    refine ⟨m, ?_, ?_, ?_, fun hwf => h4 (Memory.wf_write _ h0 hwf)⟩
    · rw [storeRegs, memWrite_of_lt h0]; exact h1
    · intro q hq
      rcases List.mem_cons.1 hq with rfl | hq
      · rw [← State.byte_setByte_same s (s.dataAddr q) (s.reg q)]
        refine h3 (s.dataAddr q) ?_
        intro p hp e
        have : (q : Nat) = p := by simp only [State.dataAddr, State.setByte_i] at e; omega
        exact hk (Fin.ext this ▸ hp)
      · exact h2 q hq
    · intro a ha
      exact (h3 a fun q hq => ha q (by simp [hq])).trans (by simp [State.byte_setByte, ha k (by simp)])

/-- Loading registers from addresses in memory succeeds: the registers of the list receive the bytes, every other register and every other field is as before. -/
theorem loadRegs_spec (ks : List RegIx) (s : State) (hlt : ∀ k ∈ ks, s.dataAddr k < 4096) :
    ∃ w, loadRegs ks s = .ok { s with v := w } ∧
      ∀ q : RegIx, ({ s with v := w } : State).reg q = if q ∈ ks then s.byte (s.dataAddr q) else s.reg q := by
  induction ks generalizing s with
  | nil => exact ⟨s.v, rfl, by simp⟩
  | cons k ks ih =>
    have h0 := hlt k (by simp)
    obtain ⟨w, h1, h2⟩ := ih (s.setReg k (s.byte (s.dataAddr k))) (fun q hq => hlt q (by simp [hq]))
    refine ⟨w, ?_, ?_⟩
    · rw [loadRegs, memRead_of_lt h0]; exact h1
    · intro q
      have h := h2 q
      simp only [State.reg_setReg, State.setReg_dataAddr, State.setReg_byte] at h
      by_cases hq : q ∈ ks
      · simpa [hq] using h
      · by_cases e : q = k
        · subst e; simpa [hq] using h
        · simpa [hq, e] using h

end Sys2Proof.Machine
end

