-- ==== Sys2Proof/Laws/PerInstr.lean ====
section
/-! SUPPORT. The family FixedBits, per instruction: the word an instruction encodes to is selected by the row of the opcode table that bears its mnemonic (30_encoding.md R93, R96). -/

namespace Sys2Proof

theorem encNNN_and_F000 (c : BitVec 4) (nnn : Addr) : encNNN c nnn &&& 0xF000#16 = c ++ 0#12 := by
  apply BitVec.eq_of_getLsbD_eq
  intro i hi
  simp only [encNNN, BitVec.getLsbD_and, BitVec.getLsbD_append]
  rcases Nat.lt_or_ge i 12 with h | h
  · have : (0xF000#16).getLsbD i = false := by interval_cases i <;> rfl
    simp [h, this]
  · have : (0xF000#16).getLsbD i = true := by interval_cases i <;> rfl
    simp [Nat.not_lt.2 h, this]

theorem encXNN_and_F000 (c : BitVec 4) (x : RegIx) (nn : Byte) : encXNN c x nn &&& 0xF000#16 = c ++ 0#12 := by
  have e : encXNN c x nn = encNNN c ((BitVec.ofFin x : BitVec 4) ++ nn) := by
    apply BitVec.eq_of_toNat_eq
    rw [toNat_encXNN, toNat_encNNN, BitVec.toNat_append, Nat.shiftLeft_eq, Nat.mul_comm (BitVec.toNat _) (2 ^ 8),
      ← Nat.two_pow_add_eq_or_of_lt nn.isLt]
    show _ = _ + (2 ^ 8 * x.val + _)
    omega
  rw [e, encNNN_and_F000]

theorem encXNN_and_F0FF (c : BitVec 4) (x : RegIx) (nn : Byte) :
    encXNN c x nn &&& 0xF0FF#16 = (c ++ 0#4) ++ nn := by
  apply BitVec.eq_of_getLsbD_eq
  intro i hi
  simp only [encXNN, BitVec.getLsbD_and, BitVec.getLsbD_append]
  rcases Nat.lt_or_ge i 8 with h | h
  · have : (0xF0FF#16).getLsbD i = true := by interval_cases i <;> rfl
    simp [h, this]
  · rcases Nat.lt_or_ge i 12 with h' | h'
    · have hm : (0xF0FF#16).getLsbD i = false := by interval_cases i <;> rfl
      have : i - 8 < 4 := by omega
      rw [hm]
      simp [Nat.not_lt.2 h, this]
    · have hm : (0xF0FF#16).getLsbD i = true := by interval_cases i <;> rfl
      have : ¬ i - 8 < 4 := by omega
      rw [hm]
      simp [Nat.not_lt.2 h, this]

theorem encXYN_and_F000 (c : BitVec 4) (x y : RegIx) (n : BitVec 4) :
    encXYN c x y n &&& 0xF000#16 = c ++ 0#12 :=
  encXNN_and_F000 c x ((BitVec.ofFin y : BitVec 4) ++ n)

theorem encXYN_and_F00F (c : BitVec 4) (x y : RegIx) (n : BitVec 4) :
    encXYN c x y n &&& 0xF00F#16 = (c ++ 0#4) ++ (0#4 ++ n) := by
  have e : (0xF00F#16 : Word) = 0xF0FF#16 &&& 0xFF0F#16 := rfl
  have h := encXNN_and_F0FF c x ((BitVec.ofFin y : BitVec 4) ++ n)
  rw [e, ← BitVec.and_assoc]
  show encXNN c x ((BitVec.ofFin y : BitVec 4) ++ n) &&& 0xF0FF#16 &&& 0xFF0F#16 = _
  rw [h]
  apply BitVec.eq_of_getLsbD_eq
  intro i hi
  simp only [BitVec.getLsbD_and, BitVec.getLsbD_append]
  rcases Nat.lt_or_ge i 4 with h4 | h4
  · have hm : (0xFF0F#16).getLsbD i = true := by interval_cases i <;> rfl
    have : i < 8 := by omega
    rw [hm]
    simp [h4, this]
  · rcases Nat.lt_or_ge i 8 with h8 | h8
    · have hm : (0xFF0F#16).getLsbD i = false := by interval_cases i <;> rfl
      rw [hm]
      simp [Nat.not_lt.2 h4, h8]
    · have hm : (0xFF0F#16).getLsbD i = true := by interval_cases i <;> rfl
      rw [hm]
      simp [Nat.not_lt.2 h8]

namespace Laws.FixedBits

/-- The word of the instruction is selected by the row of the table with the instruction's mnemonic. -/
def Statement (i : Instr) : Prop :=
  ∃ r ∈ opcodeRows, r.mnemonic = i.mnemonic ∧ r.selects (encode i) = true

/-- A row of the table, with the masked word, gives the statement. -/
theorem of_row {i : Instr} (value mask : Word) (hr : (⟨i.mnemonic, value, mask⟩ : OpcodeRow) ∈ opcodeRows)
    (h : encode i &&& mask = value) : Statement i :=
  ⟨_, hr, rfl, by simp [OpcodeRow.selects, h]⟩

theorem cls : Statement .cls := of_row 0x00E0 0xFFFF (by decide) rfl
theorem ret : Statement .ret := of_row 0x00EE 0xFFFF (by decide) rfl
theorem sys (nnn : Addr) : Statement (.sys nnn) := of_row 0x0000 0xF000 (by simp [opcodeRows, opcodeRowsA, Instr.mnemonic]) (encNNN_and_F000 0 nnn)
theorem jmp (nnn : Addr) : Statement (.jmp nnn) := of_row 0x1000 0xF000 (by simp [opcodeRows, opcodeRowsA, Instr.mnemonic]) (encNNN_and_F000 0x1 nnn)
theorem call (nnn : Addr) : Statement (.call nnn) := of_row 0x2000 0xF000 (by simp [opcodeRows, opcodeRowsA, Instr.mnemonic]) (encNNN_and_F000 0x2 nnn)
theorem skei (x : RegIx) (nn : Byte) : Statement (.skei x nn) := of_row 0x3000 0xF000 (by simp [opcodeRows, opcodeRowsA, Instr.mnemonic]) (encXNN_and_F000 0x3 x nn)
theorem skni (x : RegIx) (nn : Byte) : Statement (.skni x nn) := of_row 0x4000 0xF000 (by simp [opcodeRows, opcodeRowsA, Instr.mnemonic]) (encXNN_and_F000 0x4 x nn)
theorem sker (x y : RegIx) : Statement (.sker x y) := of_row 0x5000 0xF00F (by simp [opcodeRows, opcodeRowsA, Instr.mnemonic]) (encXYN_and_F00F 0x5 x y 0x0)
theorem mov (x : RegIx) (nn : Byte) : Statement (.mov x nn) := of_row 0x6000 0xF000 (by simp [opcodeRows, opcodeRowsA, Instr.mnemonic]) (encXNN_and_F000 0x6 x nn)
theorem addi (x : RegIx) (nn : Byte) : Statement (.addi x nn) := of_row 0x7000 0xF000 (by simp [opcodeRows, opcodeRowsA, Instr.mnemonic]) (encXNN_and_F000 0x7 x nn)
theorem cpy (x y : RegIx) : Statement (.cpy x y) := of_row 0x8000 0xF00F (by simp [opcodeRows, opcodeRowsB, Instr.mnemonic]) (encXYN_and_F00F 0x8 x y 0x0)
theorem or (x y : RegIx) : Statement (.or x y) := of_row 0x8001 0xF00F (by simp [opcodeRows, opcodeRowsB, Instr.mnemonic]) (encXYN_and_F00F 0x8 x y 0x1)
theorem and (x y : RegIx) : Statement (.and x y) := of_row 0x8002 0xF00F (by simp [opcodeRows, opcodeRowsB, Instr.mnemonic]) (encXYN_and_F00F 0x8 x y 0x2)
theorem xor (x y : RegIx) : Statement (.xor x y) := of_row 0x8003 0xF00F (by simp [opcodeRows, opcodeRowsB, Instr.mnemonic]) (encXYN_and_F00F 0x8 x y 0x3)
theorem add (x y : RegIx) : Statement (.add x y) := of_row 0x8004 0xF00F (by simp [opcodeRows, opcodeRowsB, Instr.mnemonic]) (encXYN_and_F00F 0x8 x y 0x4)
theorem sub (x y : RegIx) : Statement (.sub x y) := of_row 0x8005 0xF00F (by simp [opcodeRows, opcodeRowsB, Instr.mnemonic]) (encXYN_and_F00F 0x8 x y 0x5)
theorem shr (x y : RegIx) : Statement (.shr x y) := of_row 0x8006 0xF00F (by simp [opcodeRows, opcodeRowsB, Instr.mnemonic]) (encXYN_and_F00F 0x8 x y 0x6)
theorem rsb (x y : RegIx) : Statement (.rsb x y) := of_row 0x8007 0xF00F (by simp [opcodeRows, opcodeRowsB, Instr.mnemonic]) (encXYN_and_F00F 0x8 x y 0x7)
theorem shl (x y : RegIx) : Statement (.shl x y) := of_row 0x800E 0xF00F (by simp [opcodeRows, opcodeRowsB, Instr.mnemonic]) (encXYN_and_F00F 0x8 x y 0xE)
theorem sknr (x y : RegIx) : Statement (.sknr x y) := of_row 0x9000 0xF00F (by simp [opcodeRows, opcodeRowsB, Instr.mnemonic]) (encXYN_and_F00F 0x9 x y 0x0)
theorem ldi (nnn : Addr) : Statement (.ldi nnn) := of_row 0xA000 0xF000 (by simp [opcodeRows, opcodeRowsB, Instr.mnemonic]) (encNNN_and_F000 0xA nnn)
theorem jmpv (nnn : Addr) : Statement (.jmpv nnn) := of_row 0xB000 0xF000 (by simp [opcodeRows, opcodeRowsB, Instr.mnemonic]) (encNNN_and_F000 0xB nnn)
theorem rnd (x : RegIx) (nn : Byte) : Statement (.rnd x nn) := of_row 0xC000 0xF000 (by simp [opcodeRows, opcodeRowsB, Instr.mnemonic]) (encXNN_and_F000 0xC x nn)
theorem drw (x y : RegIx) (n : BitVec 4) : Statement (.drw x y n) := of_row 0xD000 0xF000 (by simp [opcodeRows, opcodeRowsB, Instr.mnemonic]) (encXYN_and_F000 0xD x y n)
theorem skp (x : RegIx) : Statement (.skp x) := of_row 0xE09E 0xF0FF (by simp [opcodeRows, opcodeRowsC, Instr.mnemonic]) (encXNN_and_F0FF 0xE x 0x9E)
theorem sknp (x : RegIx) : Statement (.sknp x) := of_row 0xE0A1 0xF0FF (by simp [opcodeRows, opcodeRowsC, Instr.mnemonic]) (encXNN_and_F0FF 0xE x 0xA1)
theorem gdt (x : RegIx) : Statement (.gdt x) := of_row 0xF007 0xF0FF (by simp [opcodeRows, opcodeRowsC, Instr.mnemonic]) (encXNN_and_F0FF 0xF x 0x07)
theorem key (x : RegIx) : Statement (.key x) := of_row 0xF00A 0xF0FF (by simp [opcodeRows, opcodeRowsC, Instr.mnemonic]) (encXNN_and_F0FF 0xF x 0x0A)
theorem sdt (x : RegIx) : Statement (.sdt x) := of_row 0xF015 0xF0FF (by simp [opcodeRows, opcodeRowsC, Instr.mnemonic]) (encXNN_and_F0FF 0xF x 0x15)
theorem sst (x : RegIx) : Statement (.sst x) := of_row 0xF018 0xF0FF (by simp [opcodeRows, opcodeRowsC, Instr.mnemonic]) (encXNN_and_F0FF 0xF x 0x18)
theorem adi (x : RegIx) : Statement (.adi x) := of_row 0xF01E 0xF0FF (by simp [opcodeRows, opcodeRowsC, Instr.mnemonic]) (encXNN_and_F0FF 0xF x 0x1E)
theorem fnt (x : RegIx) : Statement (.fnt x) := of_row 0xF029 0xF0FF (by simp [opcodeRows, opcodeRowsC, Instr.mnemonic]) (encXNN_and_F0FF 0xF x 0x29)
theorem bcd (x : RegIx) : Statement (.bcd x) := of_row 0xF033 0xF0FF (by simp [opcodeRows, opcodeRowsC, Instr.mnemonic]) (encXNN_and_F0FF 0xF x 0x33)
theorem stm (x : RegIx) : Statement (.stm x) := of_row 0xF055 0xF0FF (by simp [opcodeRows, opcodeRowsC, Instr.mnemonic]) (encXNN_and_F0FF 0xF x 0x55)
theorem ldm (x : RegIx) : Statement (.ldm x) := of_row 0xF065 0xF0FF (by simp [opcodeRows, opcodeRowsC, Instr.mnemonic]) (encXNN_and_F0FF 0xF x 0x65)

end Laws.FixedBits

end Sys2Proof
end

