-- ==== Sys2Proof/Laws/Timers.lean ====
section
/-! SUPPORT. The timer operations in numbers, and the gate between the sound timer and the tone (44_timers.md R211, R212, R214; 10_state.md R27). -/

namespace Sys2Proof.Machine

theorem byte_eq_zero_iff (t : Byte) : t = 0 ↔ t.toNat = 0 := by
  rw [← BitVec.toNat_inj]; rfl

theorem toNat_tickValue (t : Byte) : (tickValue t).toNat = t.toNat - 1 := by
  unfold tickValue
  split_ifs with h
  · simp [h]
  · have h1 : t.toNat ≠ 0 := fun e => h ((byte_eq_zero_iff t).2 e)
    have h2 := t.isLt
    rw [BitVec.toNat_sub]
    simp
    omega

theorem tickStatus_zero : tickStatus 0 = .stopped := rfl

theorem tickStatus_one {t : Byte} (h : t.toNat = 1) : tickStatus t = .ended := by
  have : t = 1 := BitVec.eq_of_toNat_eq h
  subst this; rfl

theorem tickStatus_of_two_le {t : Byte} (h : 2 ≤ t.toNat) : tickStatus t = .running := by
  have h0 : ¬ t = 0 := fun e => by simp [e] at h
  have h1 : ¬ t - 1 = 0 := fun e => by
    have := toNat_tickValue t
    rw [tickValue, if_neg h0, e] at this
    simp at this
    omega
  rw [tickStatus, if_neg h0, if_neg h1]

/-- Setting the sound timer keeps "tone is audible whenever this timer's value is nonzero" (R27). -/
theorem toneUpdate_setStatus (prev new : Byte) :
    toneUpdate (setStatus prev new) (decide (prev ≠ 0)) = decide (new ≠ 0) := by
  by_cases hp : prev = 0 <;> by_cases hn : new = 0 <;>
    simp only [setStatus, hp, hn, ↓reduceIte, toneUpdate, ne_eq, not_true_eq_false, not_false_eq_true, decide_true, decide_false]

/-- A tick of the sound timer keeps it too. -/
theorem toneUpdate_tickStatus (t : Byte) :
    toneUpdate (tickStatus t) (decide (t ≠ 0)) = decide (tickValue t ≠ 0) := by
  by_cases h : t = 0
  · subst h; rfl
  · by_cases h1 : t - 1 = 0 <;>
      simp only [tickStatus, tickValue, toneUpdate, h, h1, ↓reduceIte, ne_eq, not_true_eq_false, not_false_eq_true,
        decide_true, decide_false]

end Sys2Proof.Machine
end

