-- ==== Sys2Proof/Laws/Reset.lean ====
section
/-! SUPPORT. What the reset event leaves (70_reset_and_hazards.md R280, R281). -/

namespace Sys2Proof.Machine

/-- The state of `reset` before the load (R280 step 1). -/
def freshState (s : State) : State := { State.reset with font := s.font, env := { s.env with hasReset := true } }

theorem resetEvent_of_le {program : List Byte} (s : State) (h : program.length ≤ 3584) :
    resetEvent program s = { freshState s with mem := Memory.writeBytes s.font [] 512 program } := by
  have : ¬ program.length > Config.progMax := by simpa using h
  simp only [resetEvent, loadProgram, if_neg this]
  rfl

theorem resetEvent_of_gt {program : List Byte} (s : State) (h : 3584 < program.length) :
    resetEvent program s = halt (loadRecord .programTooLarge) (freshState s) := by
  have : program.length > Config.progMax := by simpa using h
  simp only [resetEvent, loadProgram, if_pos this]
  rfl

/-- Below 80 an unlisted address reads as the font table, above it as 0 (R36, R64). -/
theorem resetByte_of_lt (font : FontTable) {a : Nat} (h : a < 80) : resetByte font a = font[a] := dif_pos h

theorem resetByte_of_ge (font : FontTable) {a : Nat} (h : 80 ≤ a) : resetByte font a = 0 :=
  dif_neg (Nat.not_lt.2 h)

end Sys2Proof.Machine
end

