-- ==== Sys2Proof/Tests/Slice0.lean ====
section
/-! SUPPORT. The model's own tests. Every expected value is a vector of spec/95_test_vectors.md (named in the docstring) or worked out by hand from the rule named; then, for each statement with hypotheses, a witness that meets them. -/

namespace Sys2Proof.Machine

/-- The reset state with some registers set. -/
def resetRegs (l : List (RegIx × Byte)) : State := l.foldl (fun s p => s.setReg p.1 p.2) State.reset

/-- Bytes stored from an address on. -/
def stored (a : Nat) (bs : List Byte) (s : State) : State := { s with mem := Memory.writeBytes s.font s.mem a bs }

/-- One event queued. -/
def queued (e : Event) (s : State) : State := { s with env := { s.env with pending := [e] } }

/-- A next state, if that is what is answered. -/
def answer : Result → Option State
  | .next t => some t
  | .fault _ => none
  | .refused _ => none

/-- One step of the word placed at `pc`, with the inputs of its `cpu_step`. -/
def after (w : Nat) (inp : Inputs) (s : State) : Option State :=
  answer (step (queued (.cpuStep inp) (s.withFetchWord 16 w)))

/-- What a fault leaves of `pc`, the status and the record. -/
def haltedWith (t : State) : Addr × Status × Option FaultRecord := (t.pc, t.status, t.fault)

/-- The halt of the instruction word `msb lsb` at 0x200. -/
def haltAt200 (k : Fault) (msb lsb : Byte) : Addr × Status × Option FaultRecord :=
  (0x202, .halted, some { kind := k, pc0 := 0x200, msb := some msb, lsb := some lsb })

/-- No key pressed. -/
def noKey : Inputs := Inputs.absent

/-- One key pressed. -/
def oneKey (k : Nat) : Inputs := { keys := BitVec.ofNat 16 (2 ^ k), rand := 0, keyPick := 0 }

/-- The set pixels of one row of the grid, as columns. -/
def rowPixels (t : State) (r : Nat) : List Nat := (List.range 64).filter (fun c => t.fb.pixel r c)

/-- The reset state with the listed pixels set. -/
def resetPixels (l : List (Nat × Nat)) : State :=
  { State.reset with fb := l.foldl (fun fb p => fb.setPixel p.1 p.2 true) clearGrid }

/-! Well-formedness: the one check refuses its ill-formed terms. -/

/-- The words of CLS and RET are not SYS (R96); the SYS words beside them are. -/
theorem test_wellFormed_refuses_sys_of_cls_and_ret :
    (Instr.sys 0x0E0).wellFormed = false ∧ (Instr.sys 0x0EE).wellFormed = false ∧
    (Instr.sys 0x0E1).wellFormed = true ∧ (Instr.sys 0).wellFormed = true ∧ Instr.cls.wellFormed = true := by decide

/-! Decoding: the 35 words of S1, one per shape, written out from the patterns of R96. -/

/-- S1: the words of file 40. -/
theorem test_decode_control :
    decode 0x00 0xEE = .ok .ret ∧ decode 0x01 0x23 = .ok (.sys 0x123) ∧ decode 0x1A 0xBC = .ok (.jmp 0xABC) ∧
    decode 0x2D 0xEF = .ok (.call 0xDEF) ∧ decode 0x3A 0x42 = .ok (.skei 10 0x42) ∧
    decode 0x4B 0x17 = .ok (.skni 11 0x17) ∧ decode 0x5C 0xD0 = .ok (.sker 12 13) ∧
    decode 0x93 0x40 = .ok (.sknr 3 4) ∧ decode 0xB3 0x00 = .ok (.jmpv 0x300) := by decide

/-- S1: the words of file 41. -/
theorem test_decode_alu :
    decode 0x6A 0x02 = .ok (.mov 10 0x02) ∧ decode 0x7E 0xFF = .ok (.addi 14 0xFF) ∧
    decode 0x81 0x20 = .ok (.cpy 1 2) ∧ decode 0x83 0x41 = .ok (.or 3 4) ∧ decode 0x85 0x62 = .ok (.and 5 6) ∧
    decode 0x87 0x83 = .ok (.xor 7 8) ∧ decode 0x89 0xA4 = .ok (.add 9 10) ∧
    decode 0x8B 0xC5 = .ok (.sub 11 12) ∧ decode 0x8D 0xE6 = .ok (.shr 13 14) ∧
    decode 0x8F 0x07 = .ok (.rsb 15 0) ∧ decode 0x81 0x2E = .ok (.shl 1 2) ∧
    decode 0xC5 0xF0 = .ok (.rnd 5 0xF0) := by decide

/-- S1: the words of file 42. -/
theorem test_decode_memory :
    decode 0xA2 0xF0 = .ok (.ldi 0x2F0) ∧ decode 0xFC 0x1E = .ok (.adi 12) ∧ decode 0xFA 0x29 = .ok (.fnt 10) ∧
    decode 0xFD 0x33 = .ok (.bcd 13) ∧ decode 0xFE 0x55 = .ok (.stm 14) ∧ decode 0xFF 0x65 = .ok (.ldm 15) := by
  decide

/-- S1: the words of files 43, 44 and 45. -/
theorem test_decode_devices :
    decode 0x00 0xE0 = .ok .cls ∧ decode 0xD0 0xA5 = .ok (.drw 0 10 5) ∧ decode 0xF8 0x07 = .ok (.gdt 8) ∧
    decode 0xFA 0x15 = .ok (.sdt 10) ∧ decode 0xFB 0x18 = .ok (.sst 11) ∧ decode 0xE6 0x9E = .ok (.skp 6) ∧
    decode 0xE7 0xA1 = .ok (.sknp 7) ∧ decode 0xF9 0x0A = .ok (.key 9) := by decide

/-- T-D1 to T-D9: illegal words are refused by their bytes. -/
theorem test_decode_illegal_words :
    decode 0x51 0x21 = .error ⟨0x51, 0x21⟩ ∧ decode 0x9A 0xB5 = .error ⟨0x9A, 0xB5⟩ ∧
    decode 0x80 0x08 = .error ⟨0x80, 0x08⟩ ∧ decode 0x80 0x0F = .error ⟨0x80, 0x0F⟩ ∧
    decode 0xE0 0x00 = .error ⟨0xE0, 0x00⟩ ∧ decode 0xE1 0x9F = .error ⟨0xE1, 0x9F⟩ ∧
    decode 0xF0 0x00 = .error ⟨0xF0, 0x00⟩ ∧ decode 0xF1 0x75 = .error ⟨0xF1, 0x75⟩ ∧
    decode 0xFF 0xFF = .error ⟨0xFF, 0xFF⟩ := by decide

/-- R96, R100: words assembled from the patterns, one per format of R93. -/
theorem test_encode_formats :
    encode .cls = 0x00E0 ∧ encode (.jmp 0xABC) = 0x1ABC ∧ encode (.mov 10 0x02) = 0x6A02 ∧
    encode (.shl 1 2) = 0x812E ∧ encode (.drw 0 10 5) = 0xD0A5 ∧ encode (.sknp 7) = 0xE7A1 ∧
    encode (.ldm 15) = 0xFF65 := by decide

/-- The host's numbering of a table word: bit 0 is the least significant bit of the one word; T-D1 is refused. -/
theorem test_decodeTableWord :
    decodeTableWord 16 0xD0A5 = some (.drw 0 10 5) ∧ decodeTableWord 16 0x00EE = some .ret ∧
    decodeTableWord 16 0x5121 = none := by decide

/-- R240, D21: the fault codes. -/
theorem test_fault_codes :
    [Fault.decodeError, .outOfBounds, .stackOverflow, .stackUnderflow, .programTooLarge,
      .unsupportedInstruction].map Fault.code = [1, 2, 3, 4, 5, 6] := by decide

/-- T-R5: the font and the zeros above it. -/
theorem test_reset_font :
    (List.range 5).map State.reset.byte = [0xF0, 0x90, 0x90, 0x90, 0xF0] ∧
    (List.range 5).map (fun k => State.reset.byte (75 + k)) = [0xF0, 0x80, 0xF0, 0x80, 0x80] ∧
    State.reset.byte 80 = 0 ∧ State.reset.byte 0x1FF = 0 := by decide

/-- The reset state of a machine with another FONT_TABLE: 80 bytes 0xAA. -/
def otherFont : State := { State.reset with font := Vector.replicate 80 0xAA }

/-- R9, R71: the font is a parameter: LDM reads its bytes and the zero above them. -/
theorem test_font_is_a_parameter :
    (after 0xF165 noKey { otherFont with i := 79 }).map (fun t => (t.reg 0, t.reg 1)) = some (0xAA, 0) := by decide

/-- R9, R36, R66: a `reset` brings back the bytes of the parameter, which a store below 80 has not changed. -/
theorem test_reset_keeps_the_font_parameter :
    (answer (step (queued (.reset []) (otherFont.setByte 3 0x12)))).map
      (fun t => ((otherFont.setByte 3 0x12).byte 3, t.byte 3, t.byte 79, t.byte 80)) = some (0x12, 0xAA, 0xAA, 0) := by
  decide

/-! Control flow. -/

/-- T-C1, T-C2: a backward jump; an odd target below 512. -/
theorem test_jmp :
    (after 0x1204 noKey { State.reset with pc := 0x20A }).map (fun t => t.pc) = some 0x204 ∧
    (after 0x1001 noKey State.reset).map (fun t => t.pc) = some 0x001 := by decide

/-- T-C3. -/
theorem test_ret :
    (after 0x00EE noKey { State.reset with pc := 0x20C, stack := [0x206] }).map
      (fun t => (t.pc, t.stack)) = some (0x206, []) := by decide

/-- T-C4. -/
theorem test_ret_underflow :
    (after 0x00EE noKey State.reset).map haltedWith = some (haltAt200 .stackUnderflow 0x00 0xEE) := by decide

/-- T-C5, T-C8. -/
theorem test_call :
    (after 0x22F0 noKey State.reset).map (fun t => (t.pc, t.stack)) = some (0x2F0, [0x202]) ∧
    (after 0x2300 noKey { State.reset with pc := 0xFFC }).map
      (fun t => (t.pc, t.stack)) = some (0x300, [0xFFE]) := by decide

/-- T-C7. -/
theorem test_call_overflow :
    (after 0x2300 noKey { State.reset with stack := List.replicate 64 0x300 }).map
      (fun t => (haltedWith t, t.stack.length)) = some (haltAt200 .stackOverflow 0x23 0x00, 64) := by decide

/-- T-C10, T-C12: up to 0xFFF. -/
theorem test_jmpv :
    (after 0xBFFF noKey State.reset).map (fun t => t.pc) = some 0xFFF ∧
    (after 0xBF00 noKey (resetRegs [(0, 0xFF)])).map (fun t => t.pc) = some 0xFFF := by decide

/-- T-C11. -/
theorem test_jmpv_no_wrap :
    (after 0xBFFF noKey (resetRegs [(0, 1)])).map haltedWith = some (haltAt200 .outOfBounds 0xBF 0xFF) := by decide

/-- T-C17. -/
theorem test_sys :
    (after 0x0123 noKey State.reset).map haltedWith = some (haltAt200 .unsupportedInstruction 0x01 0x23) := by decide

/-- T-C18, T-C19. -/
theorem test_skei :
    (after 0x3A02 noKey (resetRegs [(10, 2)])).map (fun t => t.pc) = some 0x204 ∧
    (after 0x3A02 noKey (resetRegs [(10, 3)])).map (fun t => t.pc) = some 0x202 := by decide

/-- T-C25, T-C26. -/
theorem test_skei_at_the_top :
    (after 0x3000 noKey { State.reset with pc := 0xFFA }).map (fun t => (t.pc, t.status)) = some (0xFFE, .running) ∧
    (after 0x3000 noKey { State.reset with pc := 0xFFC }).map haltedWith =
      some (0xFFE, .halted, some { kind := .outOfBounds, pc0 := 0xFFC, msb := some 0x30, lsb := some 0x00 }) := by decide

/-- T-C20. -/
theorem test_skni :
    (after 0x4A02 noKey (resetRegs [(10, 2)])).map (fun t => t.pc) = some 0x202 ∧
    (after 0x4A02 noKey (resetRegs [(10, 3)])).map (fun t => t.pc) = some 0x204 := by decide

/-- T-C21; unequal by R133. -/
theorem test_sker :
    (after 0x5120 noKey (resetRegs [(1, 7), (2, 7)])).map (fun t => t.pc) = some 0x204 ∧
    (after 0x5120 noKey (resetRegs [(1, 7), (2, 8)])).map (fun t => t.pc) = some 0x202 := by decide

/-- T-C23, T-C24. -/
theorem test_sknr :
    (after 0x9120 noKey (resetRegs [(1, 7), (2, 8)])).map (fun t => t.pc) = some 0x204 ∧
    (after 0x9330 noKey (resetRegs [(3, 9)])).map (fun t => t.pc) = some 0x202 := by decide

/-- T-C15. -/
theorem test_fetch_at_the_top :
    (answer (step (queued (.cpuStep noKey) { State.reset with pc := 0xFFF }))).map haltedWith =
      some (0xFFF, .halted, some { kind := .outOfBounds, pc0 := 0xFFF, msb := none, lsb := none }) := by decide

/-- T-D1. -/
theorem test_illegal_word_halts :
    (after 0x5121 noKey State.reset).map haltedWith = some (haltAt200 .decodeError 0x51 0x21) := by decide

/-! Registers and ALU. -/

/-- T-A1. -/
theorem test_mov :
    (after 0x6A02 noKey State.reset).map (fun t => (t.reg 10, t.pc)) = some (0x02, 0x202) := by decide

/-- T-A3, T-A4: wraps, no flag. -/
theorem test_addi :
    (after 0x70FF noKey (resetRegs [(0, 5)])).map (fun t => t.reg 0) = some 4 ∧
    (after 0x7001 noKey (resetRegs [(0, 255), (15, 7)])).map (fun t => (t.reg 0, t.reg 15)) = some (0, 7) := by decide

/-- T-A5. -/
theorem test_cpy :
    (after 0x8120 noKey (resetRegs [(2, 0x7F)])).map (fun t => (t.reg 1, t.reg 2)) = some (0x7F, 0x7F) := by decide

/-- T-A6. -/
theorem test_or :
    (after 0x8121 noKey (resetRegs [(1, 0xF0), (2, 0x0F), (15, 1)])).map
      (fun t => (t.reg 1, t.reg 15)) = some (0xFF, 1) := by decide

/-- T-A7. -/
theorem test_and :
    (after 0x8122 noKey (resetRegs [(1, 0xF3), (2, 0x3F)])).map (fun t => t.reg 1) = some 0x33 := by decide

/-- T-A8, T-A9. -/
theorem test_xor :
    (after 0x8123 noKey (resetRegs [(1, 0xFF), (2, 0x0F)])).map (fun t => t.reg 1) = some 0xF0 ∧
    (after 0x8113 noKey (resetRegs [(1, 0x5A)])).map (fun t => t.reg 1) = some 0 := by decide

/-- T-A10, T-A12. -/
theorem test_add :
    (after 0x8014 noKey (resetRegs [(0, 200), (1, 100)])).map (fun t => (t.reg 0, t.reg 15)) = some (44, 1) ∧
    (after 0x8014 noKey (resetRegs [(0, 1), (1, 2), (15, 1)])).map
      (fun t => (t.reg 0, t.reg 15)) = some (3, 0) := by decide

/-- T-A14, T-A15. -/
theorem test_add_into_and_from_vf :
    (after 0x8F14 noKey (resetRegs [(15, 200), (1, 100)])).map (fun t => t.reg 15) = some 1 ∧
    (after 0x80F4 noKey (resetRegs [(0, 1), (15, 1)])).map (fun t => (t.reg 0, t.reg 15)) = some (2, 0) := by decide

/-- T-A17, T-A19. -/
theorem test_sub :
    (after 0x8015 noKey (resetRegs [(0, 5), (1, 7)])).map (fun t => (t.reg 0, t.reg 15)) = some (254, 0) ∧
    (after 0x8015 noKey (resetRegs [(0, 7), (1, 7)])).map (fun t => (t.reg 0, t.reg 15)) = some (0, 1) := by decide

/-- T-A21, T-A22. -/
theorem test_rsb :
    (after 0x8017 noKey (resetRegs [(0, 5), (1, 7)])).map (fun t => (t.reg 0, t.reg 15)) = some (2, 1) ∧
    (after 0x8017 noKey (resetRegs [(0, 7), (1, 5)])).map (fun t => (t.reg 0, t.reg 15)) = some (254, 0) := by decide

/-- T-A23, T-A24: y ignored. -/
theorem test_shr :
    (after 0x8106 noKey (resetRegs [(1, 5)])).map (fun t => (t.reg 1, t.reg 15)) = some (2, 1) ∧
    (after 0x8126 noKey (resetRegs [(1, 4), (2, 0xFF)])).map
      (fun t => (t.reg 1, t.reg 2, t.reg 15)) = some (2, 0xFF, 0) := by decide

/-- T-A26, T-A27. -/
theorem test_shl :
    (after 0x810E noKey (resetRegs [(1, 0x81)])).map (fun t => (t.reg 1, t.reg 15)) = some (2, 1) ∧
    (after 0x810E noKey (resetRegs [(1, 0x41)])).map (fun t => (t.reg 1, t.reg 15)) = some (0x82, 0) := by decide

/-- T-A29. -/
theorem test_rnd :
    (after 0xC10F { keys := 0, rand := 0xA7, keyPick := 0 } State.reset).map
      (fun t => t.reg 1) = some 0x07 := by decide

/-! Address register and memory. -/

/-- T-M2. -/
theorem test_ldi :
    (after 0xAFFF noKey State.reset).map (fun t => (t.i, t.pc)) = some (0x0FFF, 0x202) := by decide

/-- T-M5, under FX1E_SETS_VF false. -/
theorem test_adi_without_flag :
    ((addToI false 1 { resetRegs [(1, 1)] with i := 0xFFFF }).i, (addToI false 1 { resetRegs [(1, 1)] with i := 0xFFFF }).reg 15) = (0, 0) := by decide

/-- T-M6, T-M7, T-M8, under FX1E_SETS_VF true. -/
theorem test_adi_with_flag :
    ((addToI true 1 { resetRegs [(1, 1)] with i := 0xFFFF }).i, (addToI true 1 { resetRegs [(1, 1)] with i := 0xFFFF }).reg 15) = (0, 1) ∧
    (addToI true 1 { resetRegs [(1, 1), (15, 1)] with i := 0x0FFF }).reg 15 = 0 ∧
    (addToI true 15 { resetRegs [(15, 2)] with i := 0xFFFF }).i = 1 := by decide

/-- T-M9, T-M12. -/
theorem test_fnt :
    (after 0xFA29 noKey (resetRegs [(10, 2)])).map (fun t => t.i) = some 0x000A ∧
    (after 0xF129 noKey (resetRegs [(1, 255)])).map (fun t => t.i) = some 0x04FB := by decide

/-- T-M13. -/
theorem test_bcd :
    (after 0xF033 noKey { resetRegs [(0, 254)] with i := 0x300 }).map
      (fun t => ([t.byte 0x300, t.byte 0x301, t.byte 0x302], t.i)) = some ([2, 5, 4], 0x300) := by decide

/-- T-M15, T-M16. -/
theorem test_bcd_at_the_top :
    (after 0xF033 noKey { resetRegs [(0, 255)] with i := 0xFFD }).map
      (fun t => [t.byte 0xFFD, t.byte 0xFFE, t.byte 0xFFF]) = some [2, 5, 5] ∧
    (after 0xF033 noKey { resetRegs [(0, 255)] with i := 0xFFE }).map
      (fun t => (haltedWith t, t.byte 0xFFE, t.byte 0xFFF)) =
      some (haltAt200 .outOfBounds 0xF0 0x33, 0, 0) := by decide

/-- T-M18. -/
theorem test_stm :
    (after 0xF255 noKey { resetRegs [(0, 1), (1, 2), (2, 3), (3, 4)] with i := 0x400 }).map
      (fun t => ((List.range 4).map (fun k => t.byte (0x400 + k)), t.i)) = some ([1, 2, 3, 0], 0x400) := by decide

/-- T-M20, T-M21. -/
theorem test_stm_at_the_top :
    (after 0xFF55 noKey { resetRegs [(0, 1), (14, 15)] with i := 0xFF1 }).map
      (fun t => (haltedWith t, t.byte 0xFF1, t.byte 0xFFF)) =
      some (haltAt200 .outOfBounds 0xFF 0x55, 0, 0) ∧
    (after 0xF055 noKey { resetRegs [(0, 0xAB)] with i := 0xFFF }).map
      (fun t => t.byte 0xFFF) = some 0xAB := by decide

/-- T-M25. -/
theorem test_ldm :
    (after 0xF265 noKey (resetRegs [(3, 0x77)])).map
      (fun t => [t.reg 0, t.reg 1, t.reg 2, t.reg 3]) = some [0xF0, 0x90, 0x90, 0x77] := by decide

/-- T-M26. -/
theorem test_ldm_at_the_top :
    (after 0xF265 noKey { State.reset with i := 0xFFE }).map (fun t => (haltedWith t, t.reg 0)) =
      some (haltAt200 .outOfBounds 0xF2 0x65, 0) := by decide

/-! Display. -/

/-- T-G1. -/
theorem test_cls :
    (after 0x00E0 noKey { resetPixels [(0, 0), (31, 63)] with v := (resetRegs [(15, 1)]).v }).map
      (fun t => (rowPixels t 0, rowPixels t 31, t.reg 15, t.env.present)) = some ([], [], 1, true) := by decide

/-- T-G3: glyph 0 over a set pixel. -/
theorem test_drw_collision :
    (after 0xD015 noKey (resetPixels [(0, 0)])).map
      (fun t => ((List.range 6).map (rowPixels t), t.reg 15, t.env.present)) =
      some ([[1, 2, 3], [0, 3], [0, 3], [0, 3], [0, 1, 2, 3], []], 1, true) := by decide

/-- T-G5, T-G7. -/
theorem test_drw_wraps_columns_and_checks_rows :
    (after 0xD011 noKey (stored 0x300 [0xFF] { resetRegs [(0, 60), (1, 31)] with i := 0x300 })).map
      (fun t => (rowPixels t 31, t.reg 15)) = some ([0, 1, 2, 3, 60, 61, 62, 63], 0) ∧
    (after 0xD012 noKey (stored 0x300 [0xFF] { resetRegs [(1, 31)] with i := 0x300 })).map
      (fun t => (haltedWith t, rowPixels t 31)) =
      some (haltAt200 .outOfBounds 0xD0 0x12, []) := by decide

/-! Timers. -/

/-- T-T1. -/
theorem test_gdt :
    (after 0xF307 noKey { State.reset with dt := 0x2A }).map
      (fun t => (t.reg 3, t.dt)) = some (0x2A, 0x2A) := by decide

/-- T-T2, T-T3. -/
theorem test_sdt :
    (after 0xF315 noKey (resetRegs [(3, 60)])).map (fun t => (t.dt, t.dtStatus)) = some (60, .started) ∧
    (after 0xF315 noKey { State.reset with dt := 9 }).map
      (fun t => (t.dt, t.dtStatus)) = some (0, .ended) := by decide

/-- T-T6, T-T7. -/
theorem test_sst :
    (after 0xF418 noKey (resetRegs [(4, 3)])).map (fun t => (t.st, t.stStatus, t.tone)) = some (3, .started, true) ∧
    (after 0xF418 noKey { State.reset with st := 7, tone := true }).map
      (fun t => (t.st, t.stStatus, t.tone)) = some (0, .ended, false) := by decide

/-- T-T12; the last tick of T-T8. -/
theorem test_timer_tick :
    (answer (step (queued .timerTick { State.reset with dt := 1 }))).map
      (fun t => (t.dt, t.dtStatus, t.stStatus, t.tone)) =
      some (0, .ended, .stopped, false) ∧
    (answer (step (queued .timerTick { State.reset with st := 1, tone := true }))).map
      (fun t => (t.st, t.stStatus, t.tone)) =
      some (0, .ended, false) := by decide

/-- T-T13. -/
theorem test_halted_tick :
    (answer (step (queued .timerTick { State.reset with status := .halted, dt := 5, st := 5, tone := true }))).map
      (fun t => (t.status, t.dt, t.st, t.tone)) = some (.halted, 5, 5, true) := by decide

/-- R286: with nothing queued the repeated events come, and they are still repeated afterwards; R212 on the tick. -/
theorem test_repeated_events :
    (answer (step { State.reset with
      dt := 9, env := { State.reset.env with repeated := [.timerTick, .cpuStep noKey] } })).map
      (fun t => (t.dt, t.env.pending, t.env.repeated)) =
      some (8, [.cpuStep noKey], [.timerTick, .cpuStep noKey]) := by decide

/-! Keypad. -/

/-- T-K1, T-K2. -/
theorem test_skp :
    (after 0xE19E (oneKey 5) (resetRegs [(1, 5)])).map (fun t => t.pc) = some 0x204 ∧
    (after 0xE19E noKey (resetRegs [(1, 5)])).map (fun t => t.pc) = some 0x202 := by decide

/-- T-K5, T-K6. -/
theorem test_skp_index :
    (after 0xE19E (oneKey 15) (resetRegs [(1, 15)])).map (fun t => t.pc) = some 0x204 ∧
    (after 0xE19E noKey (resetRegs [(1, 16)])).map haltedWith = some (haltAt200 .outOfBounds 0xE1 0x9E) := by decide

/-- T-K3, T-K4. -/
theorem test_sknp :
    (after 0xE1A1 noKey (resetRegs [(1, 5)])).map (fun t => t.pc) = some 0x204 ∧
    (after 0xE1A1 (oneKey 5) (resetRegs [(1, 5)])).map (fun t => t.pc) = some 0x202 := by decide

/-- T-K7: no masking to the low nibble. -/
theorem test_sknp_index :
    (after 0xE1A1 (oneKey 5) (resetRegs [(1, 0xF5)])).map haltedWith = some (haltAt200 .outOfBounds 0xE1 0xA1) := by decide

/-- T-K8, T-K9. -/
theorem test_key :
    (after 0xF30A (oneKey 7) State.reset).map (fun t => (t.reg 3, t.status, t.pc)) = some (7, .running, 0x202) ∧
    (after 0xF30A noKey { State.reset with dt := 2 }).map
      (fun t => (t.reg 3, t.status, t.pc, t.dt)) = some (0, .waitKey 3, 0x202, 2) := by decide

/-- R233, KEY_CHOICE: of the keys 1, 4 and 15 each is reported for some answer of the keypad. -/
theorem test_key_choice :
    [0, 1, 2].map (fun pick => (after 0xF30A { keys := 0x8012, rand := 0, keyPick := pick } State.reset).map
      (fun t => t.reg 3)) = [some 1, some 4, some 15] := by decide

/-- T-K10, its third event. -/
theorem test_key_wait :
    (answer (step (queued (.cpuStep (oneKey 11)) { State.reset with status := .waitKey 3, pc := 0x202 }))).map
      (fun t => (t.reg 3, t.status, t.pc)) = some (0x0B, .running, 0x202) := by decide

/-! Reset and load. -/

/-- R280 on the program of P1. -/
theorem test_reset_loads_the_program :
    (answer (step (queued (.reset [0x6A, 0x02, 0xFA, 0x29, 0xD0, 0xA5]) { resetRegs [(3, 9)] with pc := 0x300 }))).map
      (fun t => (t.pc, t.reg 3, t.status, (List.range 7).map (fun k => t.byte (0x200 + k)))) =
      some (0x200, 0, .running, [0x6A, 0x02, 0xFA, 0x29, 0xD0, 0xA5, 0]) := by decide

/-- R36: no other event has a defined effect. -/
theorem test_before_the_first_reset :
    step (queued .timerTick { State.reset with env := { State.reset.env with hasReset := false } }) = .refused .beforeFirstReset := rfl

/-! Witnesses: for each statement with hypotheses, states and operands that meet them, each clause at a boundary value. The model's constants `Config.fx1eSetsVF` and the free draws have no body, so no witness fixes them. -/

/-- The state at the start of the next event. -/
def begun (s : State) : State := (nextEvent s).2

/-- A state whose next event is a `cpu_step` with no key pressed. -/
def stepping (s : State) : State := queued (.cpuStep noKey) s

/-- A halted state, as T-C16 leaves it. -/
def haltedState : State :=
  { State.reset with
    status := .halted
    fault := some { kind := .unsupportedInstruction, pc0 := 512, msb := some 0, lsb := some 0 } }

/-- A state inside a subroutine with the tone on, away from the reset state. -/
def callState : State :=
  { State.reset with pc := 0x300, stack := [0x202], st := 1, tone := true, env := (stepping State.reset).env }

theorem callState_inv : callState.Inv :=
  { memory_canonical := by decide
    pc_in_memory := by decide
    stack_depth := by decide
    stack_entries := by simp [callState]
    tone_gates_sound := by decide
    record_iff_halted := ⟨nofun, nofun⟩ }

theorem witness_decodeOfEncode : (Instr.sys 0xFFF).wellFormed = true ∧ (Instr.drw 15 15 15).wellFormed = true := by
  decide

theorem witness_encodeOfDecode : decode 0xFF 0x65 = .ok (.ldm 15) ∧ decode 0x00 0x00 = .ok (.sys 0) := by decide

/-- A state with these events repeated for ever. -/
def repeating (es : List Event) (s : State) : State := { s with env := { s.env with repeated := es } }

/-- The three clauses: an event queued, none queued and one repeated, neither. -/
theorem witness_nextEvent :
    (queued .timerTick State.reset).env.pending = .timerTick :: [] ∧
    (repeating [.timerTick] State.reset).env.pending = [] ∧
    (repeating [.timerTick] State.reset).env.repeated = .timerTick :: [] ∧
    State.reset.env.pending = [] ∧ State.reset.env.repeated = [] := by decide

/-- At the first and the last address an instruction can be fetched from. -/
theorem witness_stepExecutes : ∃ s t : State,
    (nextEvent s = (.cpuStep noKey, begun s) ∧ (begun s).env.hasReset = true ∧
      s.status = .running ∧ s.pc.toNat = 0 ∧ decode (s.byte 0) (s.byte 1) = .ok (.mov 10 2)) ∧
    (nextEvent t = (.cpuStep noKey, begun t) ∧ (begun t).env.hasReset = true ∧
      t.status = .running ∧ t.pc.toNat = 4093 ∧ decode (t.byte 4093) (t.byte 4094) = .ok (.mov 10 2)) :=
  ⟨stepping (stored 0 [0x6A, 0x02] { State.reset with pc := 0 }),
    stepping (stored 4093 [0x6A, 0x02] { State.reset with pc := 4093 }),
    ⟨rfl, rfl, rfl, rfl, by decide⟩, ⟨rfl, rfl, rfl, rfl, by decide⟩⟩

theorem witness_fetchAtTheTop : ∃ s t : State,
    (nextEvent s = (.cpuStep noKey, begun s) ∧ (begun s).env.hasReset = true ∧
      s.status = .running ∧ s.pc.toNat = 4094) ∧
    (nextEvent t = (.cpuStep noKey, begun t) ∧ (begun t).env.hasReset = true ∧
      t.status = .running ∧ t.pc.toNat = 4095) :=
  ⟨stepping { State.reset with pc := 4094 }, stepping { State.reset with pc := 4095 }, ⟨rfl, rfl, rfl, rfl⟩,
    ⟨rfl, rfl, rfl, rfl⟩⟩

theorem witness_illegalWord : ∃ s : State,
    nextEvent s = (.cpuStep noKey, begun s) ∧ (begun s).env.hasReset = true ∧
      s.status = .running ∧ s.pc.toNat = 4093 ∧ decode (s.byte 4093) (s.byte 4094) = .error ⟨0x51, 0x21⟩ :=
  ⟨stepping (stored 4093 [0x51, 0x21] { State.reset with pc := 4093 }), rfl, rfl, rfl, rfl, by decide⟩

theorem witness_haltedSteps : ∃ s : State,
    nextEvent s = (.timerTick, begun s) ∧ Event.timerTick.keepsRunning = true ∧ (begun s).env.hasReset = true ∧
    s.status = .halted := ⟨queued .timerTick haltedState, rfl, rfl, rfl, rfl⟩

/-- Two events to a halted block: hypotheses of both statements about runs of events. -/
theorem witness_haltedRuns : ∃ s : State,
    s.status = .halted ∧ s.env.hasReset = true ∧ s.env.pending = [.timerTick, .cpuStep noKey] ++ [] ∧
    ∀ e ∈ [Event.timerTick, .cpuStep noKey], e.keepsRunning = true :=
  ⟨{ haltedState with env := { State.reset.env with pending := [.timerTick, .cpuStep noKey] } },
    rfl, rfl, rfl, by decide⟩

/-- Programs of 0, 3584 and 3585 bytes, and an event before the first reset. -/
theorem witness_reset : ∃ p q : List Byte, p.length = 3584 ∧ q.length = 3585 ∧
    (∀ r : List Byte, nextEvent (queued (.reset r) haltedState) = (.reset r, begun (queued (.reset r) haltedState))) ∧
    ([] : List Byte).length ≤ 3584 ∧
    (∃ s : State, nextEvent s = (.timerTick, begun s) ∧ Event.timerTick.keepsRunning = true ∧
      (begun s).env.hasReset = false) :=
  ⟨List.replicate 3584 0, List.replicate 3585 0, List.length_replicate, List.length_replicate, fun _ => rfl,
    by decide, queued .timerTick { State.reset with env := { State.reset.env with hasReset := false } }, rfl, rfl, rfl⟩

/-- Both timers at 0, at 1 and at 255. -/
theorem witness_timerTick : ∀ b : Byte, ∃ s : State,
    nextEvent s = (.timerTick, begun s) ∧ (begun s).env.hasReset = true ∧ s.status ≠ .halted ∧ s.dt = b ∧ s.st = b :=
  fun b => ⟨queued .timerTick { State.reset with dt := b, st := b }, rfl, rfl, nofun, rfl, rfl⟩

/-- A tone of 255 ticks, from its start to its end. -/
theorem witness_tone : ∃ s : State,
    s.status ≠ .halted ∧ s.env.hasReset = true ∧ s.tone = decide (s.st ≠ 0) ∧ s.st.toNat = 255 ∧
    s.env.pending = List.replicate s.st.toNat .timerTick ++ [] :=
  ⟨{ State.reset with
      st := 255, tone := true, env := { State.reset.env with pending := List.replicate 255 .timerTick } },
    nofun, rfl, by decide, rfl, (List.append_nil _).symm⟩

theorem witness_keyWaitPolls : ∀ inp ∈ [noKey, oneKey 0, oneKey 15], ∃ s : State,
    nextEvent s = (.cpuStep inp, begun s) ∧ (begun s).env.hasReset = true ∧ s.status = .waitKey 15 :=
  fun inp _ => ⟨queued (.cpuStep inp) { State.reset with status := .waitKey 15 }, rfl, rfl, rfl⟩

/-- The clauses on the keys, the first and the last key pressed. -/
theorem witness_keys : noKey.keys = 0 ∧ (oneKey 0).keys ≠ 0 ∧ (oneKey 15).keys ≠ 0 ∧
    (oneKey 0).keys.getLsbD 0 = true ∧ (oneKey 15).keys.getLsbD 15 = true := by decide

theorem witness_keyWaitLasts : ∃ s : State,
    s.status = .waitKey 3 ∧ s.env.hasReset = true ∧ s.env.pending = [.timerTick, .cpuStep noKey] ++ [] ∧
    ∀ e ∈ [Event.timerTick, .cpuStep noKey], e.pressesNoKey = true :=
  ⟨{ State.reset with
      status := .waitKey 3, env := { State.reset.env with pending := [.timerTick, .cpuStep noKey] } },
    rfl, rfl, rfl, by decide⟩

theorem witness_ret : ∃ s : State, s.stack = [0x202] ++ [0xFFF] ∧ (0xFFF : Word).toNat < 4096 ∧
    State.reset.stack = [] :=
  ⟨{ State.reset with stack := [0x202, 0xFFF] }, rfl, by decide, rfl⟩

theorem witness_call : ∃ s t : State, s.stack.length = 63 ∧ t.stack.length = 64 :=
  ⟨{ State.reset with stack := List.replicate 63 0x202 }, { State.reset with stack := List.replicate 64 0x202 },
    by simp, by simp⟩

theorem witness_retUndoesCall : ∃ t : State,
    State.reset.stack.length < 64 ∧ exec (.call 0x300) State.reset = .next t :=
  ⟨_, by decide, rfl⟩

theorem witness_jmpv : (0xFFF : Addr).toNat + (State.reset.reg 0).toNat = 4095 ∧
    (0xF01 : Addr).toNat + ((resetRegs [(0, 0xFF)]).reg 0).toNat = 4096 := by decide

/-- Equal and unequal operands, with `pc` at both sides of the last skip that stays in memory. -/
theorem witness_registerSkips : State.reset.reg 0 = 0 ∧ State.reset.reg 0 ≠ 1 ∧ State.reset.reg 0 = State.reset.reg 1 ∧
    (resetRegs [(0, 7)]).reg 0 ≠ (resetRegs [(0, 7)]).reg 1 ∧
    ({ State.reset with pc := 4093 } : State).pc.toNat + 2 = 4095 ∧
    ({ State.reset with pc := 4094 } : State).pc.toNat + 2 = 4096 := by decide

theorem witness_keySkips : ((resetRegs [(0, 15)]).reg 0).toNat = 15 ∧ ((resetRegs [(0, 16)]).reg 0).toNat = 16 ∧
    (oneKey 15).keys.getLsbD 15 = true ∧ noKey.keys.getLsbD 15 = false := by decide

theorem witness_selfJump : ∃ s : State,
    nextEvent s = (.cpuStep noKey, begun s) ∧ (begun s).env.hasReset = true ∧
    s.status = .running ∧ s.pc.toNat = 4093 ∧
    s.byte 4093 = msbOf (encode (.jmp s.pc)) ∧ s.byte 4094 = lsbOf (encode (.jmp s.pc)) :=
  ⟨stepping (stored 4093 [0x1F, 0xFD] { State.reset with pc := 4093 }), rfl, rfl, rfl, rfl, by decide, by decide⟩

theorem witness_resultRegisterIsNotVf : (0 : RegIx) ≠ 15 ∧ (14 : RegIx) ≠ 15 := by decide

/-- The parameter has one of its two values, so one clause of ADI's statement is met. -/
theorem witness_adi : Config.fx1eSetsVF = true ∨ Config.fx1eSetsVF = false := by
  cases Config.fx1eSetsVF <;> simp

/-- The last data address inside memory and the first one outside, for BCD, STM and LDM. -/
theorem witness_dataAddr :
    ({ State.reset with i := 0xFFD } : State).dataAddr 2 = 4095 ∧
    ({ State.reset with i := 0xFFE } : State).dataAddr 2 = 4096 ∧
    ({ State.reset with i := 0xFF0 } : State).dataAddr (15 : RegIx) = 4095 ∧
    ({ State.reset with i := 0xFF1 } : State).dataAddr (15 : RegIx) = 4096 := by decide

/-- A store over the whole next word, one over its first byte alone, and one at the top of memory. -/
theorem witness_storesAreSeen : ∃ s t u : State,
    (s.pc.toNat < 4094 ∧ s.dataAddr 2 < 4096 ∧ s.dataAddr (1 : RegIx) < 4096 ∧ s.dataAddr 0 = s.pc.toNat) ∧
    (t.pc.toNat < 4094 ∧ t.dataAddr 2 < 4096 ∧ t.dataAddr (1 : RegIx) < 4096 ∧ t.dataAddr 2 = t.pc.toNat) ∧
    (u.pc.toNat = 4093 ∧ u.dataAddr 2 = 4095 ∧ u.dataAddr (2 : RegIx) = 4095) :=
  ⟨{ resetRegs [(0, 0x12), (1, 0x08)] with i := 0x202, pc := 0x202 }, { State.reset with i := 0x200, pc := 0x202 },
    { State.reset with i := 0xFFD, pc := 0xFFD }, by decide, by decide, by decide⟩

/-- Height 0, and the last byte and the last row that fit. -/
theorem witness_drw : ∃ s : State, (0 : BitVec 4) = 0 ∧
    s.i.toNat + ((15 : BitVec 4).toNat - 1) = 4095 ∧ (s.reg 1).toNat + ((15 : BitVec 4).toNat - 1) = 31 :=
  ⟨{ resetRegs [(1, 17)] with i := 0xFF1 }, rfl, by decide, by decide⟩

/-- The first byte outside memory, and the first row below the grid. -/
theorem witness_drwFaults : ∃ s t : State, (1 : BitVec 4) ≠ 0 ∧
    s.i.toNat + ((1 : BitVec 4).toNat - 1) = 4096 ∧ (t.reg 1).toNat + ((1 : BitVec 4).toNat - 1) = 32 :=
  ⟨{ State.reset with i := 0x1000 }, resetRegs [(1, 32)], by decide, by decide, by decide⟩

/-- The sprite covers a set pixel, and a clear one (both clauses of the collision). -/
theorem witness_spriteCovers : SpriteCovers 0 1 5 State.reset 0 3 ∧ (resetPixels [(0, 3)]).fb.pixel 0 3 = true :=
  ⟨⟨0, 3, by decide, by decide, by decide, by decide, by decide⟩, by decide⟩

theorem witness_drawingTwice : ∃ t : State, exec (.drw 0 1 5) State.reset = .next t ∧
    State.reset.status = .running ∧ t.status = .running ∧ t.reg 0 = State.reset.reg 0 ∧ t.reg 1 = State.reset.reg 1 ∧
    (∀ r c, State.reset.fb.pixel r c = false) ∧ State.reset.byte (State.reset.i.toNat + 0) ≠ 0 :=
  ⟨_, rfl, rfl, by decide, by decide, by decide, pixel_clearGrid, by decide⟩

/-- Both values of the timer before and after, for SDT and SST. -/
theorem witness_timerSet : State.reset.dt = 0 ∧ State.reset.st = 0 ∧
    ({ State.reset with dt := 9, st := 9 } : State).dt ≠ 0 ∧ ({ State.reset with dt := 9, st := 9 } : State).st ≠ 0 ∧
    State.reset.reg 0 = 0 ∧ (resetRegs [(0, 1)]).reg 0 ≠ 0 := by decide

theorem witness_key : State.reset.env.inputs.keys = 0 ∧ (State.reset.withInputs (oneKey 15)).env.inputs.keys ≠ 0 ∧
    (State.reset.withInputs (oneKey 15)).env.inputs.keys.getLsbD 15 = true := by
  decide

/-- An instruction that faults and one that completes, in a running state that meets the invariant. -/
theorem witness_executeFaults : callState.Inv ∧ callState.status = .running ∧
    executeFault (.sys 0) callState = some .unsupportedInstruction ∧ executeFault .ret callState = none :=
  ⟨callState_inv, rfl, by decide, by decide⟩

theorem witness_writesOnlyItsRow : ∃ t : State,
    exec (.key 3) (State.reset.withInputs (oneKey 7)) = .next t ∧ t.status ≠ .halted :=
  ⟨_, rfl, by decide⟩

theorem witness_samplesNoInput : samplesInputs (.drw 0 1 5) = false ∧ samplesInputs .ret = false := by decide

/-- A run into SYS: the step halts a running block. -/
theorem witness_faultsArePrecise : ∃ s t : State,
    nextEvent s = (.cpuStep noKey, begun s) ∧ (Event.cpuStep noKey).keepsRunning = true ∧ step s = .next t ∧
    s.status ≠ .halted ∧ t.status = .halted :=
  ⟨stepping State.reset, _, rfl, rfl, rfl, nofun, rfl⟩

theorem witness_stepAnswers : State.reset.env.hasReset = true := rfl

theorem witness_everyStep : ∃ s t : State, s.Inv ∧ step s = .next t :=
  ⟨callState, _, callState_inv, rfl⟩

/-- A step with another font than the default. -/
theorem witness_noStepChangesTheFont : ∃ t : State, step (queued .timerTick otherFont) = .next t ∧
    otherFont.font ≠ defaultFontTable :=
  ⟨_, rfl, by decide⟩

/-- Cycles and ticks in turn for ever, after one queued tick. -/
theorem witness_eventsArrive : ∃ s : State,
    [Event.cpuStep noKey, .timerTick] ≠ [] ∧ s.env.hasReset = true ∧ s.env.pending = [.timerTick] ∧
    s.env.repeated = [.cpuStep noKey, .timerTick] :=
  ⟨queued .timerTick (repeating [.cpuStep noKey, .timerTick] State.reset), nofun, rfl, rfl, rfl⟩

/-- The state a step leads to. -/
def successor (s : State) : State := (answer (step s)).getD s

/-- A run whose third state steps to itself. -/
def settled (s : State) : Nat → State
  | 0 => s
  | 1 => successor s
  | _ + 2 => successor (successor s)

/-- Ticks for ever, the delay timer at 1. -/
def tickingState : State := repeating [.timerTick] { State.reset with dt := 1 }

theorem witness_fairTicks : ∃ σ : Nat → State, IsRun σ ∧ TicksKeepArriving σ ∧ (∀ n, (σ n).status ≠ .halted) ∧
    (∀ n, (σ (n + 1)).dt.toNat ≤ (σ n).dt.toNat) ∧ (σ 0).dt ≠ 0 := by
  refine ⟨settled tickingState, ?_, fun n => ⟨n, Nat.le_refl n, ?_⟩, ?_, ?_, by decide⟩
  · rintro (_ | _ | n) <;> rfl
  · rcases n with _ | _ | n <;> rfl
  · rintro (_ | _ | n) <;> exact nofun
  · rintro (_ | _ | n)
    · decide
    · decide
    · exact Nat.le_refl _

/-- Key 7 held while `cpu_step` events come for ever, the core in `WaitKey(3)`. -/
def waitingState : State := repeating [.cpuStep (oneKey 7)] { State.reset with status := .waitKey 3 }

theorem witness_fairKeys : ∃ σ : Nat → State, IsRun σ ∧ NoReset σ ∧ CyclesKeepArriving σ ∧ AKeyIsEventuallyHeld σ ∧
    (σ 0).status = .waitKey 3 := by
  have next : ∀ n, (nextEvent (settled waitingState n)).1 = .cpuStep (oneKey 7) := by
    rintro (_ | _ | n) <;> rfl
  refine ⟨settled waitingState, ?_, fun n => by rw [next n]; rfl,
    fun n => ⟨n, oneKey 7, Nat.le_refl n, next n⟩, ⟨0, fun m inp _ h => ?_⟩, rfl⟩
  · rintro (_ | _ | n) <;> rfl
  · cases (next m).symm.trans h
    decide

/-- A `cpu_step` that runs LDI with the delay timer on. -/
theorem witness_cpuStepsKeepTheDelayTimer : ∃ s t : State,
    nextEvent s = (.cpuStep noKey, begun s) ∧ step s = .next t ∧ s.dt ≠ 0 ∧ s.status = .running ∧
    decode (s.byte s.pc.toNat) (s.byte (s.pc.toNat + 1)) = .ok (.ldi 0x2F0) :=
  ⟨stepping (stored 512 [0xA2, 0xF0] { State.reset with dt := 5 }), _, rfl, rfl, by decide, rfl, by decide⟩

end Sys2Proof.Machine
end

section
/-! SUPPORT. What each operation, each instruction and each event does to the parameter FONT_TABLE: nothing (00_scope.md R9, R18). Then the obligation of 00_scope.md. -/

namespace Sys2Proof.Machine

/-- An operation that completes after another one began where that one ended. -/
theorem bind_eq_ok {α β : Type} {r : Except Fault α} {f : α → Except Fault β} {b : β} (h : r.bind f = .ok b) :
    ∃ a, r = .ok a ∧ f a = .ok b := by
  cases r with
  | ok a => exact ⟨a, rfl, h⟩
  | error k => cases h

/-- A mapped operation completes exactly when the operation does. -/
theorem map_eq_ok {α β : Type} {r : Except Fault α} {f : α → β} {b : β} (h : r.map f = .ok b) :
    ∃ a, r = .ok a ∧ f a = b := by
  cases r with
  | ok a => exact ⟨a, rfl, Except.ok.inj h⟩
  | error k => cases h

/-! The primitives. -/

theorem jump_font {a : Nat} {s t : State} (h : jump a s = .ok t) : t.font = s.font := by
  rcases jump_cases a s with ⟨-, e⟩ | ⟨-, e⟩ <;> cases e.symm.trans h
  rfl

theorem skipIf_font {c : Bool} {s t : State} (h : skipIf c s = .ok t) : t.font = s.font := by
  rcases skipIf_cases c s with ⟨-, e⟩ | ⟨-, -, e⟩ | ⟨-, -, e⟩ <;> cases e.symm.trans h <;> rfl

theorem push_font {a : Word} {s t : State} (h : push a s = .ok t) : t.font = s.font := by
  rcases push_cases a s with ⟨-, e⟩ | ⟨-, e⟩ <;> cases e.symm.trans h
  rfl

theorem pop_font {s : State} {p : Word × State} (h : pop s = .ok p) : p.2.font = s.font := by
  rcases pop_cases s with ⟨-, e⟩ | ⟨_, _, -, e⟩ <;> cases e.symm.trans h
  rfl

theorem memWrite_font {a : Nat} {b : Byte} {s t : State} (h : memWrite a b s = .ok t) : t.font = s.font := by
  obtain ⟨-, rfl⟩ := memWrite_eq_ok h
  rfl

theorem storeRegs_font {ks : List RegIx} {s t : State} (h : storeRegs ks s = .ok t) : t.font = s.font := by
  induction ks generalizing s with
  | nil => cases h; rfl
  | cons k ks ih =>
    obtain ⟨u, hu, h⟩ := bind_eq_ok h
    exact (ih h).trans (memWrite_font hu)

theorem loadRegs_font {ks : List RegIx} {s t : State} (h : loadRegs ks s = .ok t) : t.font = s.font := by
  induction ks generalizing s with
  | nil => cases h; rfl
  | cons k ks ih =>
    obtain ⟨b, -, h⟩ := bind_eq_ok h
    exact (ih h).trans (State.setReg_font s k b)

@[simp] theorem keyPoll_font (x : RegIx) (s : State) : (keyPoll x s).font = s.font := by
  rcases keyPoll_cases x s with ⟨-, e⟩ | ⟨_, -, -, -, e⟩ <;> simp [e]

@[simp] theorem addToI_font (setsVF : Bool) (x : RegIx) (s : State) : (addToI setsVF x s).font = s.font := by
  cases setsVF <;> rfl

/-- An execute stage keeps the font if its operation does when it completes: a fault only halts (R243). -/
theorem commit_font {s t : State} {r : Except Fault State} (h : commit s r = .next t)
    (hr : ∀ u, r = .ok u → u.font = s.font) : t.font = s.font := by
  rcases commit_eq_next h with e | ⟨k, -, rfl⟩
  · exact hr t e
  · rfl

/-! The instructions. -/

theorem execDrw_font {x y : RegIx} {n : BitVec 4} {s t : State} (h : execDrw x y n s = .next t) :
    t.font = s.font := by
  refine commit_font h fun u e => ?_
  split_ifs at e
  obtain ⟨g, -, rfl⟩ := map_eq_ok e
  rfl

theorem execBcd_font {x : RegIx} {s t : State} (h : execBcd x s = .next t) : t.font = s.font := by
  refine commit_font h fun u e => ?_
  split_ifs at e
  obtain ⟨s1, h1, e⟩ := bind_eq_ok e
  obtain ⟨s2, h2, h3⟩ := bind_eq_ok e
  exact (memWrite_font h3).trans ((memWrite_font h2).trans (memWrite_font h1))

theorem execStm_font {x : RegIx} {s t : State} (h : execStm x s = .next t) : t.font = s.font := by
  refine commit_font h fun u e => ?_
  split_ifs at e
  exact storeRegs_font e

theorem execLdm_font {x : RegIx} {s t : State} (h : execLdm x s = .next t) : t.font = s.font := by
  refine commit_font h fun u e => ?_
  split_ifs at e
  exact loadRegs_font e

/-- No instruction changes the font, whether it completes or faults. -/
theorem exec_font {i : Instr} {s t : State} (h : exec i s = .next t) : t.font = s.font := by
  cases i with
  | cls | ldi | fnt => cases h; rfl
  | mov | addi | cpy | or | and | xor | rnd => cases h; rfl
  | add | sub | rsb | shr | shl => cases h; rfl
  | gdt | sdt | sst => cases h; rfl
  | sys => cases h; rfl
  | key x => cases h; exact keyPoll_font x s
  | adi x => cases h; exact addToI_font _ x s
  | jmp | jmpv => exact commit_font h fun _ => jump_font
  | skei | skni | sker | sknr => exact commit_font h fun _ => skipIf_font
  | ret =>
    refine commit_font h fun u e => ?_
    obtain ⟨_, hp, hj⟩ := bind_eq_ok e
    exact (jump_font hj).trans (pop_font hp)
  | call =>
    refine commit_font h fun u e => ?_
    obtain ⟨_, hp, hj⟩ := bind_eq_ok e
    exact (jump_font hj).trans (push_font hp)
  | skp | sknp =>
    refine commit_font h fun u e => ?_
    obtain ⟨_, -, hs⟩ := bind_eq_ok e
    exact skipIf_font hs
  | drw => exact execDrw_font h
  | bcd => exact execBcd_font h
  | stm => exact execStm_font h
  | ldm => exact execLdm_font h

/-! The events. -/

theorem cycle_font {s t : State} (h : cycle s = .next t) : t.font = s.font := by
  unfold cycle at h
  rcases Nat.lt_or_ge s.pc.toNat 4094 with hlt | hge
  · rw [fetch_of_lt hlt] at h
    dsimp only at h
    split at h
    · cases h; rfl
    · exact (exec_font h).trans rfl
  · rw [fetch_of_ge hge] at h
    cases h; rfl

theorem cpuStep_font {s t : State} (h : cpuStep s = .next t) : t.font = s.font := by
  unfold cpuStep at h
  split at h
  · cases h; rfl
  · cases h; exact keyPoll_font _ s
  · exact cycle_font h

@[simp] theorem timerTick_font (s : State) : (timerTick s).font = s.font := by
  unfold timerTick
  split <;> rfl

/-- A reset keeps the parameter that it copies into memory (R18, R36), also when the load fails. -/
@[simp] theorem resetEvent_font (program : List Byte) (s : State) : (resetEvent program s).font = s.font := by
  rcases Nat.lt_or_ge 3584 program.length with h | h
  · rw [resetEvent_of_gt s h]; rfl
  · rw [resetEvent_of_le s h]; rfl

theorem runEvent_font {e : Event} {s t : State} (h : runEvent e s = .next t) : t.font = s.font := by
  unfold runEvent at h
  cases e with
  | reset program => cases h; exact resetEvent_font program s
  | cpuStep inp =>
    dsimp only at h
    split_ifs at h
    exact (cpuStep_font h).trans (State.withInputs_font s inp)
  | timerTick =>
    dsimp only at h
    split_ifs at h
    cases h; exact timerTick_font s

@[simp] theorem nextEvent_font (s : State) : (nextEvent s).2.font = s.font := by
  rw [(nextEvent_frame s).1]

/-- Settles O52: a step is the start of an event and the event's effect, and neither changes the font. -/
theorem noStepChangesTheFontTable : Obligations.NoStepChangesTheFontTable :=
  fun s _ h => (runEvent_font h).trans (nextEvent_font s)

end Sys2Proof.Machine
end

section
/-! SUPPORT. The frame calculus: which parts of the state an operation writes (10_state.md R21, R37), stated so that writes compose. -/

namespace Sys2Proof.Machine

/-- A property of every part of the state is one of its registers and of each of its fields. -/
theorem Part.forall_iff {P : Part → Prop} :
    (∀ p, P p) ↔ (∀ r, P (.reg r)) ∧ P .i ∧ P .pc ∧ P .stack ∧ P .dt ∧ P .st ∧ P .tone ∧ P .fb ∧ P .mem ∧ P .font ∧
      P .status ∧ P .fault ∧ P .dtStatus ∧ P .stStatus ∧ P .env := by
  constructor
  · intro h
    exact ⟨fun r => h _, h _, h _, h _, h _, h _, h _, h _, h _, h _, h _, h _, h _, h _, h _⟩
  · rintro ⟨hreg, hi, hpc, hstack, hdt, hst, htone, hfb, hmem, hfont, hstatus, hfault, hdts, hsts, henv⟩ p
    cases p with
    | reg r => exact hreg r
    | _ => assumption

theorem Part.same_trans {p : Part} {s t u : State} (h : p.same s t) (k : p.same t u) : p.same s u := by
  cases p with
  | mem => exact fun a => (k a).trans (h a)
  | _ => exact Eq.trans k h

/-- Every part outside the list is as before; memory, when outside, even in its representation, which `UnchangedExcept` does not say and the canonical form needs. -/
def WritesOnly (ps : List Part) (s t : State) : Prop :=
  UnchangedExcept ps s t ∧ (Part.mem ∉ ps → t.mem = s.mem)

namespace WritesOnly

theorem unchangedExcept {ps : List Part} {s t : State} (h : WritesOnly ps s t) : UnchangedExcept ps s t := h.1

theorem mem_eq {ps : List Part} {s t : State} (h : WritesOnly ps s t) (hm : Part.mem ∉ ps) : t.mem = s.mem := h.2 hm

theorem mono {ps qs : List Part} {s t : State} (h : WritesOnly ps s t) (hq : ps ⊆ qs) : WritesOnly qs s t :=
  ⟨fun p hp => h.1 p fun hm => hp (hq hm), fun hp => h.2 fun hm => hp (hq hm)⟩

theorem trans {ps : List Part} {s t u : State} (h : WritesOnly ps s t) (k : WritesOnly ps t u) : WritesOnly ps s u :=
  ⟨fun p hp => Part.same_trans (h.1 p hp) (k.1 p hp), fun hp => (k.2 hp).trans (h.2 hp)⟩

/-- Two operations in a row write what either of them writes. -/
theorem append {ps qs : List Part} {s t u : State} (h : WritesOnly ps s t) (k : WritesOnly qs t u) :
    WritesOnly (ps ++ qs) s u :=
  (h.mono (List.subset_append_left ps qs)).trans (k.mono (List.subset_append_right ps qs))

/-! The updates of one field. -/

theorem refl (s : State) : WritesOnly [] s s := by
  simp [WritesOnly, UnchangedExcept, Part.forall_iff, Part.same]

theorem set_i (s : State) (a : Word) : WritesOnly [.i] s { s with i := a } := by
  simp [WritesOnly, UnchangedExcept, Part.forall_iff, Part.same, State.reg, State.byte]

theorem set_pc (s : State) (a : Addr) : WritesOnly [.pc] s { s with pc := a } := by
  simp [WritesOnly, UnchangedExcept, Part.forall_iff, Part.same, State.reg, State.byte]

theorem set_stack (s : State) (l : List Word) : WritesOnly [.stack] s { s with stack := l } := by
  simp [WritesOnly, UnchangedExcept, Part.forall_iff, Part.same, State.reg, State.byte]

theorem set_fb (s : State) (g : FrameBuffer) : WritesOnly [.fb] s { s with fb := g } := by
  simp [WritesOnly, UnchangedExcept, Part.forall_iff, Part.same, State.reg, State.byte]

theorem set_status (s : State) (st : Status) : WritesOnly [.status] s { s with status := st } := by
  simp [WritesOnly, UnchangedExcept, Part.forall_iff, Part.same, State.reg, State.byte]

theorem set_env (s : State) (e : Env) : WritesOnly [.env] s { s with env := e } := by
  simp [WritesOnly, UnchangedExcept, Part.forall_iff, Part.same, State.reg, State.byte]

/-! The named updates. -/

theorem setByte (s : State) (a : Nat) (b : Byte) : WritesOnly [.mem] s (s.setByte a b) := by
  simp [WritesOnly, UnchangedExcept, Part.forall_iff, Part.same]

theorem setReg (s : State) (r : RegIx) (b : Byte) : WritesOnly [.reg r] s (s.setReg r b) := by
  simp +contextual [WritesOnly, UnchangedExcept, Part.forall_iff, Part.same, State.reg_setReg_of_ne]

theorem setFlag (s : State) (f : Bool) : WritesOnly [.reg vf] s (s.setFlag f) := setReg s vf (bitByte f)

theorem setResultFlag (s : State) (x : RegIx) (b : Byte) (f : Bool) :
    WritesOnly [.reg x, .reg vf] s (s.setResultFlag x b f) :=
  (setReg s x b).append (setFlag _ f)

theorem setDelay (b : Byte) (s : State) : WritesOnly [.dt, .dtStatus] s (setDelay b s) := by
  simp [WritesOnly, UnchangedExcept, Part.forall_iff, Part.same]

theorem setSound (b : Byte) (s : State) : WritesOnly [.st, .tone, .stStatus] s (setSound b s) := by
  simp [WritesOnly, UnchangedExcept, Part.forall_iff, Part.same]

theorem emitPresent (s : State) : WritesOnly [.env] s s.emitPresent := set_env s _

/-! The operations that complete. -/

theorem jump {a : Nat} {s t : State} (h : jump a s = .ok t) : WritesOnly [.pc] s t := by
  rcases jump_cases a s with ⟨-, e⟩ | ⟨-, e⟩ <;> cases e.symm.trans h
  exact set_pc s _

theorem skipIf {c : Bool} {s t : State} (h : skipIf c s = .ok t) : WritesOnly [.pc] s t := by
  rcases skipIf_cases c s with ⟨-, e⟩ | ⟨-, -, e⟩ | ⟨-, -, e⟩ <;> cases e.symm.trans h
  · exact (refl s).mono (List.nil_subset _)
  · exact set_pc s _

theorem push {a : Word} {s t : State} (h : push a s = .ok t) : WritesOnly [.stack] s t := by
  rcases push_cases a s with ⟨-, e⟩ | ⟨-, e⟩ <;> cases e.symm.trans h
  exact set_stack s _

theorem pop {s : State} {p : Word × State} (h : pop s = .ok p) : WritesOnly [.stack] s p.2 := by
  rcases pop_cases s with ⟨-, e⟩ | ⟨_, _, -, e⟩ <;> cases e.symm.trans h
  exact set_stack s _

theorem memWrite {a : Nat} {b : Byte} {s t : State} (h : memWrite a b s = .ok t) : WritesOnly [.mem] s t := by
  obtain ⟨-, rfl⟩ := memWrite_eq_ok h
  exact setByte s a b

theorem storeRegs {ks : List RegIx} {s t : State} (h : storeRegs ks s = .ok t) : WritesOnly [.mem] s t := by
  induction ks generalizing s with
  | nil => cases h; exact (refl _).mono (List.nil_subset _)
  | cons k ks ih =>
    obtain ⟨u, hu, h⟩ := bind_eq_ok h
    exact (memWrite hu).trans (ih h)

theorem loadRegs {ks : List RegIx} {s t : State} (h : loadRegs ks s = .ok t) : WritesOnly (ks.map .reg) s t := by
  induction ks generalizing s with
  | nil => cases h; exact refl _
  | cons k ks ih =>
    obtain ⟨b, -, h⟩ := bind_eq_ok h
    exact (setReg s k b).append (ih h)

theorem keyPoll (x : RegIx) (s : State) : WritesOnly [.reg x, .status] s (keyPoll x s) := by
  rcases keyPoll_cases x s with ⟨-, e⟩ | ⟨k, -, -, -, e⟩ <;> rw [e]
  · exact (set_status s _).mono (by simp)
  · exact (setReg s x _).append (set_status _ _)

/-- ADI writes VF only under the parameter (R172). -/
theorem addToI (setsVF : Bool) (x : RegIx) (s : State) :
    WritesOnly (if setsVF then [.i, .reg vf] else [.i]) s (addToI setsVF x s) := by
  cases setsVF with
  | false => exact set_i s _
  | true => exact (set_i s _).append (setFlag _ _)

end WritesOnly

end Sys2Proof.Machine
end

section
/-! SUPPORT. What an instruction does to the state: it faults and only halts, or it completes and writes its row of the access matrix (10_state.md R37; 60_exceptions.md R243). -/

namespace Sys2Proof.Machine

/-- An execute stage only halts, or its result has what every completed result of the operation has (R243). -/
theorem commit_cases {s t : State} {r : Except Fault State} {P : State → Prop} (h : commit s r = .next t)
    (hr : ∀ u, r = .ok u → P u) : (∃ k, t = raise k s) ∨ P t := by
  rcases commit_eq_next h with e | ⟨k, -, e⟩
  · exact .inr (hr t e)
  · exact .inl ⟨k, e⟩

/-- All DRW can do: the halt, or some grid, the flag and the pulse (R194, R196). -/
theorem execDrw_cases {x y : RegIx} {n : BitVec 4} {s t : State} (h : execDrw x y n s = .next t) :
    (∃ k, t = raise k s) ∨ ∃ g flag, t = ({ s with fb := g }.setFlag flag).emitPresent := by
  rcases commit_eq_next h with e | ⟨k, -, e⟩
  · split_ifs at e
    obtain ⟨g, -, rfl⟩ := map_eq_ok e
    exact .inr ⟨g.1, g.2, rfl⟩
  · exact .inl ⟨k, e⟩

theorem execDrw_writesOnly {x y : RegIx} {n : BitVec 4} {s t : State} (h : execDrw x y n s = .next t) :
    (∃ k, t = raise k s) ∨ WritesOnly [.reg vf, .fb, .env] s t := by
  rcases execDrw_cases h with hk | ⟨g, flag, rfl⟩
  · exact .inl hk
  · exact .inr ((((WritesOnly.set_fb s g).append (.setFlag _ flag)).append (.emitPresent _)).mono (by simp))

theorem execBcd_writesOnly {x : RegIx} {s t : State} (h : execBcd x s = .next t) :
    (∃ k, t = raise k s) ∨ WritesOnly [.mem] s t := by
  refine commit_cases h fun u e => ?_
  split_ifs at e
  obtain ⟨s1, h1, e⟩ := bind_eq_ok e
  obtain ⟨s2, h2, h3⟩ := bind_eq_ok e
  exact ((WritesOnly.memWrite h1).trans (.memWrite h2)).trans (.memWrite h3)

theorem execStm_writesOnly {x : RegIx} {s t : State} (h : execStm x s = .next t) :
    (∃ k, t = raise k s) ∨ WritesOnly [.mem] s t := by
  refine commit_cases h fun u e => ?_
  split_ifs at e
  exact .storeRegs e

theorem execLdm_writesOnly {x : RegIx} {s t : State} (h : execLdm x s = .next t) :
    (∃ k, t = raise k s) ∨ WritesOnly ((regsUpTo x).map .reg) s t := by
  refine commit_cases h fun u e => ?_
  split_ifs at e
  exact .loadRegs e

/-- All an instruction can do: the halt of its fault, or writes inside its row of the access matrix. -/
theorem exec_cases {i : Instr} {s t : State} (h : exec i s = .next t) :
    (∃ k, t = raise k s) ∨ WritesOnly (writtenParts i) s t := by
  cases i with
  | cls => cases h; exact .inr ((WritesOnly.set_fb s _).append (.emitPresent _))
  | sys => cases h; exact .inl ⟨_, rfl⟩
  | ldi | fnt => cases h; exact .inr (.set_i s _)
  | mov | addi | cpy | or | and | xor | rnd | gdt => cases h; exact .inr (.setReg s _ _)
  | add | sub | rsb | shr | shl => cases h; exact .inr (.setResultFlag s _ _ _)
  | sdt => cases h; exact .inr (.setDelay _ s)
  | sst => cases h; exact .inr (.setSound _ s)
  | key x => cases h; exact .inr (.keyPoll x s)
  | adi x => cases h; exact .inr (.addToI _ x s)
  | jmp | jmpv => exact commit_cases h fun _ => .jump
  | skei | skni | sker | sknr => exact commit_cases h fun _ => .skipIf
  | skp | sknp =>
    refine commit_cases h fun u e => ?_
    obtain ⟨_, -, hs⟩ := bind_eq_ok e
    exact .skipIf hs
  | ret =>
    refine commit_cases h fun u e => ?_
    obtain ⟨_, hp, hj⟩ := bind_eq_ok e
    exact ((WritesOnly.pop hp).append (.jump hj)).mono (by simp [writtenParts])
  | call =>
    refine commit_cases h fun u e => ?_
    obtain ⟨_, hp, hj⟩ := bind_eq_ok e
    exact ((WritesOnly.push hp).append (.jump hj)).mono (by simp [writtenParts])
  | drw => exact execDrw_writesOnly h
  | bcd => exact execBcd_writesOnly h
  | stm => exact execStm_writesOnly h
  | ldm => exact execLdm_writesOnly h

/-- Settles O46: an instruction either halts or writes only its row, and a completed one is not halted. -/
theorem instructionsWriteOnlyTheirAccessMatrixRow : Obligations.InstructionsWriteOnlyTheirAccessMatrixRow := by
  intro i s t h hrun
  rcases exec_cases h with ⟨k, rfl⟩ | hw
  · exact absurd (raise_status k s) hrun
  · exact hw.unchangedExcept

end Sys2Proof.Machine
end

section
/-! SUPPORT. Every operation, every instruction and every event keeps the invariant of 10_state.md R35. -/

namespace Sys2Proof.Machine

/-- The parts the invariant speaks of. -/
def invParts : List Part := [.stack, .st, .tone, .mem, .font, .status, .fault]

/-- What writes none of the parts the invariant speaks of keeps it; `pc` is in memory by its type (R23). -/
theorem State.Inv.of_writesOnly {ps : List Part} {s t : State} (hs : s.Inv) (h : WritesOnly ps s t)
    (hps : ∀ p ∈ invParts, p ∉ ps) : t.Inv := by
  have same (p : Part) (hp : p ∈ invParts) : p.same s t := h.unchangedExcept p (hps p hp)
  have hmem : t.mem = s.mem := h.mem_eq (hps .mem (by simp [invParts]))
  have hfont : t.font = s.font := same .font (by simp [invParts])
  have hstack : t.stack = s.stack := same .stack (by simp [invParts])
  have hst : t.st = s.st := same .st (by simp [invParts])
  have htone : t.tone = s.tone := same .tone (by simp [invParts])
  have hstatus : t.status = s.status := same .status (by simp [invParts])
  have hfault : t.fault = s.fault := same .fault (by simp [invParts])
  exact
    { memory_canonical := by rw [hmem, hfont]; exact hs.memory_canonical
      pc_in_memory := t.pc.isLt
      stack_depth := by rw [hstack]; exact hs.stack_depth
      stack_entries := by rw [hstack]; exact hs.stack_entries
      tone_gates_sound := by rw [htone, hst]; exact hs.tone_gates_sound
      record_iff_halted := by rw [hstatus, hfault]; exact hs.record_iff_halted }

/-- A halt writes the record and the status together (R243). -/
theorem State.Inv.halt {s : State} (hs : s.Inv) (r : FaultRecord) : (halt r s).Inv :=
  { hs with record_iff_halted := by simp }

/-! The operations that write a part the invariant speaks of. -/

theorem State.Inv.memWrite {a : Nat} {b : Byte} {s t : State} (hs : s.Inv) (h : memWrite a b s = .ok t) : t.Inv := by
  obtain ⟨ha, rfl⟩ := memWrite_eq_ok h
  exact { hs with memory_canonical := Memory.wf_write b ha hs.memory_canonical }

theorem State.Inv.storeRegs {ks : List RegIx} {s t : State} (hs : s.Inv) (h : storeRegs ks s = .ok t) : t.Inv := by
  induction ks generalizing s with
  | nil => cases h; exact hs
  | cons k ks ih =>
    obtain ⟨u, hu, h⟩ := bind_eq_ok h
    exact ih (hs.memWrite hu) h

theorem State.Inv.push {a : Word} {s t : State} (hs : s.Inv) (ha : 2 ≤ a.toNat ∧ a.toNat ≤ 4095)
    (h : push a s = .ok t) : t.Inv := by
  rcases push_cases a s with ⟨hlt, e⟩ | ⟨-, e⟩ <;> cases e.symm.trans h
  refine { hs with stack_depth := ?_, stack_entries := ?_ }
  · simpa using hlt
  · intro b hb
    rcases List.mem_append.1 hb with hb | hb
    · exact hs.stack_entries b hb
    · exact List.mem_singleton.1 hb ▸ ha

theorem State.Inv.pop {s : State} {p : Word × State} (hs : s.Inv) (h : pop s = .ok p) : p.2.Inv := by
  rcases pop_cases s with ⟨-, e⟩ | ⟨below, a, hst, e⟩ <;> cases e.symm.trans h
  have hdepth := hs.stack_depth
  have hentries := hs.stack_entries
  rw [hst] at hdepth hentries
  refine { hs with stack_depth := ?_, stack_entries := fun b hb => hentries b (List.mem_append_left _ hb) }
  exact Nat.le_trans (List.length_append ▸ Nat.le_add_right _ _) hdepth

theorem State.Inv.jump {a : Nat} {s t : State} (hs : s.Inv) (h : jump a s = .ok t) : t.Inv :=
  hs.of_writesOnly (.jump h) (by simp [invParts])

theorem State.Inv.setSound {s : State} (hs : s.Inv) (b : Byte) : (setSound b s).Inv :=
  { hs with
    tone_gates_sound := by
      rw [setSound_tone, setSound_st, hs.tone_gates_sound]
      exact toneUpdate_setStatus s.st b }

theorem State.Inv.tickTimers {s : State} (hs : s.Inv) : (tickTimers s).Inv :=
  { hs with
    tone_gates_sound := by
      rw [tickTimers_tone, tickTimers_st, hs.tone_gates_sound]
      exact toneUpdate_tickStatus s.st }

/-- Outside `Halted` there is no record, so a status that is not `Halted` goes with the record as it is (R31). -/
theorem State.Inv.setStatus {s : State} (hs : s.Inv) (hrun : s.status ≠ .halted) {st : Status} (hst : st ≠ .halted) :
    ({ s with status := st } : State).Inv :=
  { hs with record_iff_halted := iff_of_false hst (mt hs.record_iff_halted.2 hrun) }

theorem State.Inv.keyPoll {s : State} (hs : s.Inv) (hrun : s.status ≠ .halted) (x : RegIx) : (keyPoll x s).Inv := by
  rcases keyPoll_cases x s with ⟨-, e⟩ | ⟨k, -, -, -, e⟩ <;> rw [e]
  · exact hs.setStatus hrun nofun
  · have hr : (s.setReg x (BitVec.ofNat 8 k)).Inv := hs.of_writesOnly (.setReg s x _) (by simp [invParts])
    exact hr.setStatus hrun nofun

/-! The instructions. -/

/-- An execute stage keeps the invariant if its operation does when it completes: a fault only halts (R243). -/
theorem State.Inv.commit {s t : State} {r : Except Fault State} (hs : s.Inv) (h : commit s r = .next t)
    (hr : ∀ u, r = .ok u → u.Inv) : t.Inv := by
  rcases commit_cases h hr with ⟨k, rfl⟩ | ht
  · exact hs.halt _
  · exact ht

/-- The return address of a CALL is the moved `pc`, which is at least 2 (R23, R24, R129). -/
theorem execCall_inv {nnn : Addr} {s t : State} (hs : s.Inv) (hpc : 2 ≤ s.pc.toNat)
    (h : execCall nnn s = .next t) : t.Inv := by
  refine hs.commit h fun u e => ?_
  obtain ⟨_, hp, hj⟩ := bind_eq_ok e
  have hz : (zext16 s.pc).toNat = s.pc.toNat := BitVec.toNat_setWidth_of_le (by decide)
  have hlt := s.pc.isLt
  exact (hs.push (by omega) hp).jump hj

theorem execRet_inv {s t : State} (hs : s.Inv) (h : execRet s = .next t) : t.Inv := by
  refine hs.commit h fun u e => ?_
  obtain ⟨_, hp, hj⟩ := bind_eq_ok e
  exact (hs.pop hp).jump hj

theorem execBcd_inv {x : RegIx} {s t : State} (hs : s.Inv) (h : execBcd x s = .next t) : t.Inv := by
  refine hs.commit h fun u e => ?_
  split_ifs at e
  obtain ⟨s1, h1, e⟩ := bind_eq_ok e
  obtain ⟨s2, h2, h3⟩ := bind_eq_ok e
  exact ((hs.memWrite h1).memWrite h2).memWrite h3

theorem execStm_inv {x : RegIx} {s t : State} (hs : s.Inv) (h : execStm x s = .next t) : t.Inv := by
  refine hs.commit h fun u e => ?_
  split_ifs at e
  exact hs.storeRegs e

/-- An instruction whose row of the access matrix has no part the invariant speaks of keeps it. -/
theorem exec_inv_of_row {i : Instr} {s t : State} (hs : s.Inv) (h : exec i s = .next t)
    (hrow : ∀ p ∈ invParts, p ∉ writtenParts i) : t.Inv := by
  rcases exec_cases h with ⟨k, rfl⟩ | hw
  · exact hs.halt _
  · exact hs.of_writesOnly hw hrow

/-- Every instruction keeps the invariant, run after a fetch in a block that is not halted. -/
theorem exec_inv {i : Instr} {s t : State} (hs : s.Inv) (hrun : s.status ≠ .halted) (hpc : 2 ≤ s.pc.toNat)
    (h : exec i s = .next t) : t.Inv := by
  cases i with
  | call => exact execCall_inv hs hpc h
  | ret => exact execRet_inv hs h
  | bcd => exact execBcd_inv hs h
  | stm => exact execStm_inv hs h
  | sst x => cases h; exact hs.setSound _
  | key x => cases h; exact hs.keyPoll hrun x
  | adi => exact exec_inv_of_row hs h (by simp only [writtenParts]; split <;> simp [invParts])
  | _ => exact exec_inv_of_row hs h (by simp [invParts, writtenParts])

/-! The events. -/

theorem cycle_inv {s t : State} (hs : s.Inv) (hrun : s.status = .running) (h : cycle s = .next t) : t.Inv := by
  unfold cycle at h
  rcases Nat.lt_or_ge s.pc.toNat 4094 with hlt | hge
  · rw [fetch_of_lt hlt] at h
    have hf := hs.of_writesOnly (.set_pc s (BitVec.ofNat 12 (s.pc.toNat + 2))) (by simp [invParts])
    dsimp only at h
    split at h
    · cases h; exact hf.halt _
    · refine exec_inv hf (by simp [hrun]) ?_ h
      rw [toNat_ofNat_addr (by omega)]
      omega
  · rw [fetch_of_ge hge] at h
    cases h; exact hs.halt _

theorem cpuStep_inv {s t : State} (hs : s.Inv) (h : cpuStep s = .next t) : t.Inv := by
  unfold cpuStep at h
  split at h
  case h_1 => cases h; exact hs
  case h_2 x hst => cases h; exact hs.keyPoll (by simp [hst]) x
  case h_3 hst => exact cycle_inv hs hst h

theorem timerTick_inv {s : State} (hs : s.Inv) : (timerTick s).Inv := by
  unfold timerTick
  split
  · exact hs
  · exact hs.tickTimers
  · exact hs.tickTimers

/-- The state of a reset before the load meets the invariant, whatever came before (R36). -/
theorem freshState_inv (s : State) : (freshState s).Inv where
  memory_canonical := ⟨List.Pairwise.nil, nofun⟩
  pc_in_memory := (freshState s).pc.isLt
  stack_depth := Nat.zero_le 64
  stack_entries := nofun
  tone_gates_sound := rfl
  record_iff_halted := ⟨nofun, nofun⟩

theorem resetEvent_inv (program : List Byte) (s : State) : (resetEvent program s).Inv := by
  have hs := freshState_inv s
  rcases Nat.lt_or_ge 3584 program.length with h | h
  · rw [resetEvent_of_gt s h]
    exact hs.halt _
  · rw [resetEvent_of_le s h]
    exact { hs with memory_canonical := Memory.wf_writeBytes program 512 (by omega) hs.memory_canonical }

theorem runEvent_inv {e : Event} {s t : State} (hs : s.Inv) (h : runEvent e s = .next t) : t.Inv := by
  unfold runEvent at h
  cases e with
  | reset program => cases h; exact resetEvent_inv program s
  | cpuStep inp =>
    dsimp only at h
    split_ifs at h
    exact cpuStep_inv (hs.of_writesOnly (.set_env s _) (by simp [invParts])) h
  | timerTick =>
    dsimp only at h
    split_ifs at h
    cases h; exact timerTick_inv hs

theorem nextEvent_inv {s : State} (hs : s.Inv) : (nextEvent s).2.Inv := by
  rw [(nextEvent_frame s).1]
  exact hs.of_writesOnly (.set_env s _) (by simp [invParts])

/-- Settles O50: the start of an event and the event's effect both keep the invariant. -/
theorem everyStepKeepsTheInvariant : Obligations.EveryStepKeepsTheInvariant :=
  fun _ _ hs h => runEvent_inv (nextEvent_inv hs) h

/-- Settles O51: the reset state is what a reset leaves before its load. -/
theorem resetMeetsTheInvariant : Obligations.ResetMeetsTheInvariant := freshState_inv State.reset

end Sys2Proof.Machine
end

section
/-! SUPPORT. Which inputs an instruction depends on: each operation commutes with the presenting of other inputs, unless it samples them (10_state.md R37; 45_keypad.md R230). -/

namespace Sys2Proof.Machine

/-- A bind answers alike for two operations whose results, and whose continuations on them, correspond. -/
theorem bind_map_congr {α β : Type} {r r' : Except Fault α} {f : α → α} {g g' : α → Except Fault β} {k : β → β}
    (hr : r' = r.map f) (hg : ∀ a, g' (f a) = (g a).map k) : r'.bind g' = (r.bind g).map k := by
  subst hr
  cases r with
  | ok a => exact hg a
  | error e => rfl

/-- A guarded operation answers as its result does: on the guard both sides fault alike. -/
theorem guard_map_congr {α : Type} {c : Prop} [Decidable c] {k : Fault} {r r' : Except Fault α} {f : α → α}
    (h : r' = r.map f) : (if c then .error k else r') = (if c then .error k else r).map f := by
  split
  · rfl
  · exact h

/-! The operations that sample no input. -/

section
variable (inp : Inputs)

theorem jump_withInputs (a : Nat) (s : State) :
    jump a (s.withInputs inp) = (jump a s).map (·.withInputs inp) :=
  guard_map_congr rfl

theorem skipIf_withInputs (c : Bool) (s : State) :
    skipIf c (s.withInputs inp) = (skipIf c s).map (·.withInputs inp) := by
  cases c with
  | false => rfl
  | true => exact guard_map_congr rfl

theorem push_withInputs (a : Word) (s : State) :
    push a (s.withInputs inp) = (push a s).map (·.withInputs inp) :=
  guard_map_congr rfl

theorem pop_withInputs (s : State) :
    pop (s.withInputs inp) = (pop s).map (fun p => (p.1, p.2.withInputs inp)) := by
  unfold pop
  simp only [State.withInputs_stack]
  split <;> rfl

theorem memWrite_withInputs (a : Nat) (b : Byte) (s : State) :
    memWrite a b (s.withInputs inp) = (memWrite a b s).map (·.withInputs inp) :=
  guard_map_congr rfl

theorem memRead_withInputs (a : Nat) (s : State) : memRead a (s.withInputs inp) = (memRead a s).map id :=
  guard_map_congr rfl

theorem storeRegs_withInputs (ks : List RegIx) (s : State) :
    storeRegs ks (s.withInputs inp) = (storeRegs ks s).map (·.withInputs inp) := by
  induction ks generalizing s with
  | nil => rfl
  | cons k ks ih => exact bind_map_congr (memWrite_withInputs inp _ _ s) ih

theorem loadRegs_withInputs (ks : List RegIx) (s : State) :
    loadRegs ks (s.withInputs inp) = (loadRegs ks s).map (·.withInputs inp) := by
  induction ks generalizing s with
  | nil => rfl
  | cons k ks ih => exact bind_map_congr (memRead_withInputs inp _ s) fun b => ih (s.setReg k b)

theorem addToI_withInputs (setsVF : Bool) (x : RegIx) (s : State) :
    addToI setsVF x (s.withInputs inp) = (addToI setsVF x s).withInputs inp := by
  cases setsVF <;> rfl

/-- An execute stage whose operation commutes with the presenting of inputs does so itself: a fault reads none (R242). -/
theorem commit_withInputs {s : State} {r r' : Except Fault State} (h : r' = r.map (·.withInputs inp)) :
    ∃ t, commit s r = .next t ∧ commit (s.withInputs inp) r' = .next (t.withInputs inp) := by
  subst h
  refine ⟨_, rfl, ?_⟩
  cases r with
  | ok t => rfl
  | error k => rfl

/-! The instructions whose operation is of several steps. -/

/-- DRW tests that the sprite fits, so its guard is turned round before the law of guards applies (R194). -/
theorem execDrw_withInputs (x y : RegIx) (n : BitVec 4) (s : State) :
    ∃ t, execDrw x y n s = .next t ∧ execDrw x y n (s.withInputs inp) = .next (t.withInputs inp) := by
  refine commit_withInputs inp ?_
  rw [← ite_not, ← ite_not (p := spriteFits s.i.toNat (s.reg y).toNat n.toNat = true)]
  refine guard_map_congr ?_
  change (drawRows s.byte s.i.toNat (s.reg x).toNat (s.reg y).toNat (List.range n.toNat) (s.fb, false)).map _ = _
  generalize drawRows s.byte s.i.toNat (s.reg x).toNat (s.reg y).toNat (List.range n.toNat) (s.fb, false) = r
  cases r <;> rfl

theorem execBcd_withInputs (x : RegIx) (s : State) :
    ∃ t, execBcd x s = .next t ∧ execBcd x (s.withInputs inp) = .next (t.withInputs inp) :=
  commit_withInputs inp <| guard_map_congr <|
    bind_map_congr (memWrite_withInputs inp _ _ s) fun s1 =>
    bind_map_congr (memWrite_withInputs inp _ _ s1) fun s2 => memWrite_withInputs inp _ _ s2

theorem execStm_withInputs (x : RegIx) (s : State) :
    ∃ t, execStm x s = .next t ∧ execStm x (s.withInputs inp) = .next (t.withInputs inp) :=
  commit_withInputs inp (guard_map_congr (storeRegs_withInputs inp (regsUpTo x) s))

theorem execLdm_withInputs (x : RegIx) (s : State) :
    ∃ t, execLdm x s = .next t ∧ execLdm x (s.withInputs inp) = .next (t.withInputs inp) :=
  commit_withInputs inp (guard_map_congr (loadRegs_withInputs inp (regsUpTo x) s))

end

/-- Settles O47: the operation of every instruction but the four samplers commutes with the presenting of inputs. -/
theorem onlyFourInstructionsSampleTheInputs : Obligations.OnlyFourInstructionsSampleTheInputs := by
  intro i s inp hi
  cases i with
  | rnd | skp | sknp | key => exact absurd hi nofun
  | cls | ldi | fnt => exact ⟨_, rfl, rfl⟩
  | mov | addi | cpy | or | and | xor => exact ⟨_, rfl, rfl⟩
  | add | sub | rsb | shr | shl => exact ⟨_, rfl, rfl⟩
  | gdt | sdt | sst => exact ⟨_, rfl, rfl⟩
  | sys => exact commit_withInputs inp rfl
  | adi x => exact ⟨_, rfl, congrArg Host.Outcome.next (addToI_withInputs inp _ x s)⟩
  | jmp | jmpv => exact commit_withInputs inp (jump_withInputs inp _ s)
  | skei | skni | sker | sknr => exact commit_withInputs inp (skipIf_withInputs inp _ s)
  | ret => exact commit_withInputs inp (bind_map_congr (pop_withInputs inp s) fun p => jump_withInputs inp _ p.2)
  | call => exact commit_withInputs inp (bind_map_congr (push_withInputs inp _ s) fun u => jump_withInputs inp _ u)
  | drw x y n => exact execDrw_withInputs inp x y n s
  | bcd x => exact execBcd_withInputs inp x s
  | stm x => exact execStm_withInputs inp x s
  | ldm x => exact execLdm_withInputs inp x s

end Sys2Proof.Machine
end

section
/-! SUPPORT. The order of events: the first event of the queue or of the repeated ones comes next, every step after a first reset answers, and the events come in the order the host issues (10_state.md R34; 70_reset_and_hazards.md R286). -/

namespace Sys2Proof.Machine

/-! Which event comes next (log 6). -/

theorem nextEvent_of_pending {s : State} {e : Event} {rest : List Event} (h : s.env.pending = e :: rest) :
    nextEvent s = (e, s.startEvent rest) := by
  simp [nextEvent, h]

theorem nextEvent_of_repeated {s : State} {e : Event} {rest : List Event} (hp : s.env.pending = [])
    (h : s.env.repeated = e :: rest) : nextEvent s = (e, s.startEvent rest) := by
  simp [nextEvent, hp, h]

theorem nextEvent_of_free {s : State} (hp : s.env.pending = []) (h : s.env.repeated = []) :
    nextEvent s =
      (freeEvent s.env.draws, { s with env := { s.env with present := false, draws := s.env.draws + 1 } }) := by
  simp [nextEvent, hp, h]

/-- Settles O6, one clause for each place the next event can come from. -/
theorem nextEventIsQueuedRepeatedOrFree : Obligations.NextEventIsQueuedRepeatedOrFree :=
  fun _ => ⟨fun _ _ => nextEvent_of_pending, fun _ _ => nextEvent_of_repeated,
    fun hp hr => ⟨_, nextEvent_of_free hp hr⟩⟩

/-! Every event answers, and leaves the schedule as it is. -/

/-- The events still to come are the same, and a first reset has happened in both states or in neither. -/
def SameSchedule (s t : State) : Prop :=
  t.env.pending = s.env.pending ∧ t.env.repeated = s.env.repeated ∧ t.env.hasReset = s.env.hasReset

theorem SameSchedule.of_env_eq {s t : State} (h : t.env = s.env) : SameSchedule s t := by
  simp [SameSchedule, h]

theorem exec_answers (i : Instr) (s : State) : ∃ t, exec i s = .next t := by
  cases i <;> exact ⟨_, rfl⟩

/-- Of the boundary an instruction writes at most the pulse `present` (R196). -/
theorem exec_sameSchedule {i : Instr} {s t : State} (h : exec i s = .next t) : SameSchedule s t := by
  rcases exec_cases h with ⟨k, rfl⟩ | hw
  · exact .of_env_eq rfl
  cases i with
  | cls => cases h; exact ⟨rfl, rfl, rfl⟩
  | drw =>
    rcases execDrw_cases h with ⟨k, rfl⟩ | ⟨g, flag, rfl⟩
    · exact .of_env_eq rfl
    · exact ⟨rfl, rfl, rfl⟩
  | adi => exact .of_env_eq (hw.unchangedExcept .env (by simp only [writtenParts]; split <;> simp))
  | _ => exact .of_env_eq (hw.unchangedExcept .env (by simp [writtenParts]))

theorem cycle_answers (s : State) : ∃ t, cycle s = .next t ∧ SameSchedule s t := by
  unfold cycle
  rcases Nat.lt_or_ge s.pc.toNat 4094 with hlt | hge
  · rw [fetch_of_lt hlt]
    dsimp only
    split
    · exact ⟨_, rfl, .of_env_eq rfl⟩
    · obtain ⟨t, ht⟩ := exec_answers _ _
      have hs := exec_sameSchedule ht
      exact ⟨t, ht, hs⟩
  · rw [fetch_of_ge hge]
    exact ⟨_, rfl, .of_env_eq rfl⟩

theorem cpuStep_answers (s : State) : ∃ t, cpuStep s = .next t ∧ SameSchedule s t := by
  unfold cpuStep
  split
  case h_1 => exact ⟨s, rfl, .of_env_eq rfl⟩
  case h_2 x _ => exact ⟨_, rfl, .of_env_eq ((WritesOnly.keyPoll x s).unchangedExcept .env (by simp))⟩
  case h_3 => exact cycle_answers s

@[simp] theorem timerTick_env (s : State) : (timerTick s).env = s.env := by
  unfold timerTick
  split <;> rfl

/-- A reset keeps the schedule, and is a first one if there was none (R280, log 20). -/
@[simp] theorem resetEvent_env (program : List Byte) (s : State) :
    (resetEvent program s).env = { s.env with hasReset := true } := by
  rcases Nat.lt_or_ge 3584 program.length with h | h
  · rw [resetEvent_of_gt s h]; rfl
  · rw [resetEvent_of_le s h]; rfl

theorem runEvent_answers (e : Event) {s : State} (hr : s.env.hasReset = true) :
    ∃ t, runEvent e s = .next t ∧ SameSchedule s t := by
  cases e with
  | reset program => exact ⟨_, rfl, by simp [SameSchedule, hr]⟩
  | cpuStep inp =>
    obtain ⟨t, ht, hs⟩ := cpuStep_answers (s.withInputs inp)
    exact ⟨t, by simpa [runEvent, hr] using ht, hs⟩
  | timerTick => exact ⟨timerTick s, by simp [runEvent, hr], .of_env_eq (timerTick_env s)⟩

/-- After a first reset a step answers, and the schedule is the one its event leaves. -/
theorem step_answers {s : State} (hr : s.env.hasReset = true) :
    ∃ t, step s = .next t ∧ SameSchedule (nextEvent s).2 t :=
  runEvent_answers _ ((nextEvent_frame s).2.1.trans hr)

/-- Settles O49: every event answers after a first reset, and none forgets it. -/
theorem stepAlwaysAnswersANextState : Obligations.StepAlwaysAnswersANextState := by
  intro s hr
  obtain ⟨t, ht, -, -, hreset⟩ := step_answers hr
  exact ⟨t, ht, hreset.trans ((nextEvent_frame s).2.1.trans hr)⟩

/-! The infinite sequence of a finite queue followed by a cycle. -/

/-- Event n of `first` followed by `cycle` over and over. -/
def scheduledEvent (first cycle : List Event) (hc : cycle ≠ []) (n : Nat) : Event :=
  if h : n < first.length then first[n]
  else cycle[(n - first.length) % cycle.length]'(Nat.mod_lt _ (List.length_pos_iff.2 hc))

theorem scheduledEvent_cons_zero (e : Event) (rest : List Event) {cycle : List Event} (hc : cycle ≠ []) :
    scheduledEvent (e :: rest) cycle hc 0 = e := by
  simp [scheduledEvent]

theorem scheduledEvent_cons_succ (e : Event) (rest : List Event) {cycle : List Event} (hc : cycle ≠ []) (n : Nat) :
    scheduledEvent (e :: rest) cycle hc (n + 1) = scheduledEvent rest cycle hc n := by
  simp [scheduledEvent]

/-- With the queue empty the cycle is what is queued. -/
theorem scheduledEvent_nil {cycle : List Event} (hc : cycle ≠ []) (n : Nat) :
    scheduledEvent [] cycle hc n = scheduledEvent cycle cycle hc n := by
  by_cases h : n < cycle.length
  · simp [scheduledEvent, h, Nat.mod_eq_of_lt h]
  · have hmod : n % cycle.length = (n - cycle.length) % cycle.length := Nat.mod_eq_sub_mod (Nat.not_lt.1 h)
    simp [scheduledEvent, h, hmod]

/-- The next event is event 0 of the schedule, and the queue it leaves is the schedule from event 1 on. -/
theorem nextEvent_scheduled {s : State} {cycle : List Event} (hc : cycle ≠ []) (hrep : s.env.repeated = cycle) :
    (nextEvent s).1 = scheduledEvent s.env.pending cycle hc 0 ∧
    ∀ n, scheduledEvent (nextEvent s).2.env.pending cycle hc n = scheduledEvent s.env.pending cycle hc (n + 1) := by
  cases hp : s.env.pending with
  | cons e rest =>
    rw [nextEvent_of_pending hp]
    exact ⟨(scheduledEvent_cons_zero e rest hc).symm, fun n => (scheduledEvent_cons_succ e rest hc n).symm⟩
  | nil =>
    obtain ⟨e, rest, rfl⟩ := List.exists_cons_of_ne_nil hc
    rw [nextEvent_of_repeated hp hrep]
    simp only [scheduledEvent_nil hc]
    exact ⟨(scheduledEvent_cons_zero e rest hc).symm, fun n => (scheduledEvent_cons_succ e rest hc n).symm⟩

/-- After n steps the next event is event n of the schedule. -/
theorem run_nextIs_scheduledEvent {cycle : List Event} (hc : cycle ≠ []) (n : Nat) {s : State}
    (hr : s.env.hasReset = true) (hrep : s.env.repeated = cycle) :
    ∃ t, run n s = .next t ∧ t.nextIs (scheduledEvent s.env.pending cycle hc n) := by
  induction n generalizing s with
  | zero => exact ⟨s, rfl, (nextEvent_scheduled hc hrep).1⟩
  | succ n ih =>
    obtain ⟨-, hreset, -, hrepeated⟩ := nextEvent_frame s
    obtain ⟨u, hu, hpend', hrepeated', hreset'⟩ := step_answers hr
    obtain ⟨t, ht, hnext⟩ := ih (hreset'.trans (hreset.trans hr)) (hrepeated'.trans (hrepeated.trans hrep))
    refine ⟨t, by simp only [run, hu, ht], ?_⟩
    rwa [hpend', (nextEvent_scheduled hc hrep).2 n] at hnext

/-- Settles O53: the schedule from `first` and `cycle` is the one the statement spells out. -/
theorem eventsArriveInTheOrderTheHostIssues : Obligations.EventsArriveInTheOrderTheHostIssues := by
  intro s first cycle hc n hr hfirst hrep
  subst hfirst
  exact run_nextIs_scheduledEvent hc n hr hrep

end Sys2Proof.Machine
end

section
/-! SUPPORT. What `reset(program)` leaves: the reset values, and memory byte by byte in both outcomes of the load (10_state.md R36; 70_reset_and_hazards.md R280, R281). -/

namespace Sys2Proof.Machine

/-- A load that fits lays the program over the reset contents from 512 on (R64, R280). -/
theorem byte_resetEvent_of_le {program : List Byte} (s : State) (h : program.length ≤ 3584) (a : Nat) :
    (resetEvent program s).byte a =
      if ha : 512 ≤ a ∧ a < 512 + program.length then program[a - 512]'(by omega) else resetByte s.font a := by
  rw [resetEvent_of_le s h]
  exact Memory.read_writeBytes s.font [] program 512 a

/-- A load that does not fit writes nothing (R281). -/
theorem byte_resetEvent_of_gt {program : List Byte} (s : State) (h : 3584 < program.length) (a : Nat) :
    (resetEvent program s).byte a = resetByte s.font a := by
  rw [resetEvent_of_gt s h]
  rfl

/-- Below the program region memory has its reset contents in both outcomes of the load. -/
theorem byte_resetEvent_of_lt_progBase (program : List Byte) (s : State) {a : Nat} (ha : a < 512) :
    (resetEvent program s).byte a = resetByte s.font a := by
  rcases Nat.lt_or_ge 3584 program.length with h | h
  · exact byte_resetEvent_of_gt s h a
  · rw [byte_resetEvent_of_le s h, dif_neg (by omega)]

/-- Apart from memory, the status and the record, both outcomes of the load leave the state of a reset before it. -/
theorem resetEvent_unchangedExcept (program : List Byte) (s : State) :
    UnchangedExcept [.mem, .status, .fault] (freshState s) (resetEvent program s) := by
  rcases Nat.lt_or_ge 3584 program.length with h | h
  · rw [resetEvent_of_gt s h]
    simp [UnchangedExcept, Part.forall_iff, Part.same]
  · rw [resetEvent_of_le s h]
    simp [UnchangedExcept, Part.forall_iff, Part.same, State.reg, freshState]

theorem reg_freshState (s : State) (r : RegIx) : (freshState s).reg r = 0 := by
  simp [State.reg, freshState, State.reset]

theorem pixel_resetEvent (program : List Byte) (s : State) (r c : Nat) :
    (resetEvent program s).fb.pixel r c = false := by
  have hfb : (resetEvent program s).fb = clearGrid := resetEvent_unchangedExcept program s .fb (by simp)
  rw [hfb, pixel_clearGrid]

/-- Before the first reset an event other than `reset` is refused by name (R36, log 10). -/
theorem step_refused_of_not_hasReset {s s1 : State} {e : Event} (h : nextEvent s = (e, s1))
    (hk : e.keepsRunning = true) (hr : s1.env.hasReset = false) : step s = .refused .beforeFirstReset := by
  cases e with
  | reset program => cases hk
  | cpuStep inp => simp [step, h, runEvent, hr]
  | timerTick => simp [step, h, runEvent, hr]

/-- Settles O12: the reset values by what both loads leave alike, memory and status by the two loads, and the refusal by the event's own test. -/
theorem resetLeavesTheResetValues : Obligations.ResetLeavesTheResetValues := by
  intro s s1
  refine ⟨fun program h => ⟨resetEvent program s1, step_of_reset h, ?_⟩, fun e => step_refused_of_not_hasReset⟩
  have hfont : s1.font = s.font := by simpa [h] using nextEvent_font s
  have same (p : Part) (hp : p ∉ [.mem, .status, .fault]) : p.same (freshState s1) (resetEvent program s1) :=
    resetEvent_unchangedExcept program s1 p hp
  refine ⟨same .pc (by simp), fun r => (same (.reg r) (by simp)).trans (reg_freshState s1 r), same .i (by simp),
    same .stack (by simp), same .dt (by simp), same .st (by simp), same .tone (by simp), pixel_resetEvent program s1,
    same .dtStatus (by simp), same .stStatus (by simp), (resetEvent_font program s1).trans hfont, ?font, ?gap,
    fun hle => ?fits, fun hgt => ?tooLarge⟩
  case font =>
    intro a ha
    rw [byte_resetEvent_of_lt_progBase program s1 (by omega), resetByte_of_lt s1.font ha, hfont]
  case gap =>
    intro a hlo hhi
    rw [byte_resetEvent_of_lt_progBase program s1 hhi, resetByte_of_ge s1.font hlo]
  case fits =>
    refine ⟨by rw [resetEvent_of_le s1 hle]; rfl, by rw [resetEvent_of_le s1 hle]; rfl, fun k hk => ?_, fun a ha => ?_⟩
    · rw [byte_resetEvent_of_le s1 hle, dif_pos (by omega)]
      simp
    · rw [byte_resetEvent_of_le s1 hle, dif_neg (by omega), resetByte_of_ge s1.font (by omega)]
  case tooLarge =>
    refine ⟨by rw [resetEvent_of_gt s1 hgt]; rfl, by rw [resetEvent_of_gt s1 hgt]; rfl, fun a ha => ?_⟩
    rw [byte_resetEvent_of_gt s1 hgt, resetByte_of_ge s1.font (by omega)]

end Sys2Proof.Machine
end

section
/-! SUPPORT. BCD and STM inside memory: the byte at every address after the store, and what the next fetch reads (42_index_and_memory.md R174, R175). Then the obligation of 20_memory.md. -/

namespace Sys2Proof.Machine

theorem State.dataAddr_inj (s : State) {j k : Nat} : s.dataAddr j = s.dataAddr k ↔ j = k := Nat.add_left_cancel_iff

theorem State.dataAddr_lt_of_le {s : State} {j k : Nat} (hjk : j ≤ k) (h : s.dataAddr k < 4096) :
    s.dataAddr j < 4096 :=
  Nat.lt_of_le_of_lt (Nat.add_le_add_left hjk _) h

/-- Inside memory BCD completes; `byteAfterBcd` is memory after it, byte by byte (R174). -/
theorem execBcd_of_lt {x : RegIx} {s : State} (h : s.dataAddr 2 < 4096) :
    ∃ t, execBcd x s = .next t ∧ (∀ a, t.byte a = byteAfterBcd x s a) ∧ WritesOnly [.mem] s t := by
  have h0 := State.dataAddr_lt_of_le (Nat.zero_le 2) h
  have h1 := State.dataAddr_lt_of_le (Nat.le_succ 1) h
  refine ⟨((s.setByte (s.dataAddr 0) (hundreds (s.reg x))).setByte (s.dataAddr 1) (tens (s.reg x))).setByte
    (s.dataAddr 2) (units (s.reg x)), ?completes, fun a => ?bytes,
    ((WritesOnly.setByte s _ _).trans (.setByte _ _ _)).trans (.setByte _ _ _)⟩
  case completes =>
    simp [execBcd, commit, Nat.not_le.2 h, memWrite_of_lt h0, memWrite_of_lt h1, memWrite_of_lt h, Except.bind]
  case bytes =>
    unfold byteAfterBcd
    split_ifs with e0 e1 e2
    · simp [e0, State.byte_setByte, State.dataAddr_inj, hundreds]
    · simp [e1, State.byte_setByte, State.dataAddr_inj, tens]
    · simp [e2, units]
    · simp [State.byte_setByte, e0, e1, e2]

/-- Inside memory STM completes; `byteAfterStm` is memory after it, byte by byte (R175). -/
theorem execStm_of_lt {x : RegIx} {s : State} (h : s.dataAddr x < 4096) :
    ∃ t, execStm x s = .next t ∧ (∀ a, t.byte a = byteAfterStm x s a) ∧ WritesOnly [.mem] s t := by
  have hlt : ∀ k ∈ regsUpTo x, s.dataAddr k < 4096 := fun k hk =>
    State.dataAddr_lt_of_le ((mem_regsUpTo x k).1 hk) h
  obtain ⟨m, hstore, hin, hout, -⟩ := storeRegs_spec (regsUpTo x) s hlt (nodup_regsUpTo x)
  refine ⟨{ s with mem := m }, ?completes, fun a => ?bytes, .storeRegs hstore⟩
  case completes => rw [execStm, if_neg (Nat.not_le.2 h), hstore]; rfl
  case bytes =>
    unfold byteAfterStm
    split_ifs with ha
    · have hk : a = s.dataAddr (a - s.dataAddr 0) := by simp only [State.dataAddr] at ha ⊢; omega
      have hbyte := hin ⟨a - s.dataAddr 0, by omega⟩ ((mem_regsUpTo x _).2 ha.2)
      rwa [← hk] at hbyte
    · refine hout a fun k hk e => ha ?_
      have hkx : k.val ≤ x.val := (mem_regsUpTo x k).1 hk
      simp only [State.dataAddr] at e ⊢
      omega

/-- After writes to memory alone the fetch at the old `pc` reads what memory became (R79, R120). -/
theorem fetch_of_writesOnly_mem {s t : State} {after : Nat → Byte} (hbytes : ∀ a, t.byte a = after a)
    (hw : WritesOnly [.mem] s t) (hpc : s.pc.toNat < 4094) :
    ∃ u, fetch t = some (after s.pc.toNat, after (s.pc.toNat + 1), u) ∧
      u.pc.toNat = s.pc.toNat + 2 ∧ UnchangedExcept [.pc, .mem] s u := by
  have hsame : t.pc = s.pc := hw.unchangedExcept .pc (by simp)
  rw [← hsame] at hpc ⊢
  rw [← hbytes, ← hbytes]
  exact ⟨_, fetch_of_lt hpc, toNat_ofNat_addr (by omega), ((hw.append (.set_pc t _)).mono (by simp)).unchangedExcept⟩

/-- Settles O36: both stores write memory alone, and the fetch reads the bytes they leave. -/
theorem storesAreSeenByTheNextFetch : Obligations.StoresAreSeenByTheNextFetch := by
  intro x s hpc
  refine ⟨fun h => ?bcd, fun h => ?stm⟩
  case bcd =>
    obtain ⟨t, ht, hbytes, hw⟩ := execBcd_of_lt h
    obtain ⟨u, hu⟩ := fetch_of_writesOnly_mem hbytes hw hpc
    exact ⟨t, u, ht, hu⟩
  case stm =>
    obtain ⟨t, ht, hbytes, hw⟩ := execStm_of_lt h
    obtain ⟨u, hu⟩ := fetch_of_writesOnly_mem hbytes hw hpc
    exact ⟨t, u, ht, hu⟩

end Sys2Proof.Machine
end

section
/-! SUPPORT. The fields of a word and the word built again from them (30_encoding.md R92, R93), and decode by its word (R91, R95). -/

namespace Sys2Proof

/-- The two bytes decode to what their word decodes to. -/
theorem decode_eq_ok_iff {msb lsb : Byte} {i : Instr} : decode msb lsb = .ok i ↔ decodeWord (msb ++ lsb) = some i := by
  unfold decode
  cases decodeWord (msb ++ lsb) <;> simp

/-- A failure is that of the two bytes themselves. -/
theorem decode_eq_error_iff {msb lsb : Byte} {e : DecodeError} :
    decode msb lsb = .error e ↔ decodeWord (msb ++ lsb) = none ∧ e = ⟨msb, lsb⟩ := by
  unfold decode
  cases decodeWord (msb ++ lsb) <;> simp [eq_comm]

theorem toOption_decode (msb lsb : Byte) : (decode msb lsb).toOption = decodeWord (msb ++ lsb) := by
  unfold decode
  cases decodeWord (msb ++ lsb) <;> rfl

/-! The fields of a word built by each format. -/

@[simp] theorem nibble0_encNNN (c : BitVec 4) (nnn : Addr) : nibble0 (encNNN c nnn) = c := by
  apply BitVec.eq_of_toNat_eq
  rw [toNat_nibble0, toNat_encNNN]
  omega

@[simp] theorem fieldNNN_encNNN (c : BitVec 4) (nnn : Addr) : fieldNNN (encNNN c nnn) = nnn := by
  apply BitVec.eq_of_toNat_eq
  rw [toNat_fieldNNN, toNat_encNNN]
  omega

@[simp] theorem nibble0_encXNN (c : BitVec 4) (x : RegIx) (nn : Byte) : nibble0 (encXNN c x nn) = c := by
  apply BitVec.eq_of_toNat_eq
  rw [toNat_nibble0, toNat_encXNN]
  omega

@[simp] theorem fieldX_encXNN (c : BitVec 4) (x : RegIx) (nn : Byte) : fieldX (encXNN c x nn) = x := by
  apply Fin.ext
  rw [val_fieldX, toNat_encXNN]
  omega

@[simp] theorem fieldNN_encXNN (c : BitVec 4) (x : RegIx) (nn : Byte) : fieldNN (encXNN c x nn) = nn := by
  apply BitVec.eq_of_toNat_eq
  rw [toNat_fieldNN, toNat_encXNN]
  omega

@[simp] theorem nibble0_encXYN (c : BitVec 4) (x y : RegIx) (n : BitVec 4) : nibble0 (encXYN c x y n) = c := by
  apply BitVec.eq_of_toNat_eq
  rw [toNat_nibble0, toNat_encXYN]
  omega

@[simp] theorem fieldX_encXYN (c : BitVec 4) (x y : RegIx) (n : BitVec 4) : fieldX (encXYN c x y n) = x := by
  apply Fin.ext
  rw [val_fieldX, toNat_encXYN]
  omega

@[simp] theorem fieldY_encXYN (c : BitVec 4) (x y : RegIx) (n : BitVec 4) : fieldY (encXYN c x y n) = y := by
  apply Fin.ext
  rw [val_fieldY, toNat_encXYN]
  omega

@[simp] theorem fieldN_encXYN (c : BitVec 4) (x y : RegIx) (n : BitVec 4) : fieldN (encXYN c x y n) = n := by
  apply BitVec.eq_of_toNat_eq
  rw [toNat_fieldN, toNat_encXYN]
  omega

/-! A word is built from its own fields, by every format. -/

section
variable {w : Word} {c : BitVec 4} (hc : (nibble0 w).toNat = c.toNat)
include hc

theorem encNNN_of_nibble0 : encNNN c (fieldNNN w) = w := by
  apply BitVec.eq_of_toNat_eq
  rw [toNat_encNNN, ← hc, toNat_nibble0, toNat_fieldNNN]
  omega

theorem encXNN_of_nibble0 : encXNN c (fieldX w) (fieldNN w) = w := by
  apply BitVec.eq_of_toNat_eq
  rw [toNat_encXNN, ← hc, toNat_nibble0, val_fieldX, toNat_fieldNN]
  omega

theorem encXYN_of_nibble0 : encXYN c (fieldX w) (fieldY w) (fieldN w) = w := by
  apply BitVec.eq_of_toNat_eq
  rw [toNat_encXYN, ← hc, toNat_nibble0, val_fieldX, val_fieldY, toNat_fieldN]
  omega

end

/-! The fields of a word of two bytes, in numbers. -/

theorem toNat_nibble0_append (msb lsb : Byte) : (nibble0 (msb ++ lsb)).toNat = msb.toNat / 16 := by
  rw [toNat_nibble0, toNat_append_bytes]
  omega

theorem toNat_fieldN_append (msb lsb : Byte) : (fieldN (msb ++ lsb)).toNat = lsb.toNat % 16 := by
  rw [toNat_fieldN, toNat_append_bytes]
  omega

theorem toNat_fieldNN_append (msb lsb : Byte) : (fieldNN (msb ++ lsb)).toNat = lsb.toNat := by
  rw [toNat_fieldNN, toNat_append_bytes]
  omega

end Sys2Proof
end

section
/-! SUPPORT. The round trips between words and instructions (30_encoding.md R96, R100). -/

namespace Sys2Proof

/-- Settles O1: each of the words is decoded as it stands. -/
theorem specWordsDecodeToTheirShapes : Obligations.SpecWordsDecodeToTheirShapes := by
  unfold Obligations.SpecWordsDecodeToTheirShapes
  decide

/-! From an instruction to its word and back. -/

theorem decode0_of_wellFormed {nnn : Addr} (h : (Instr.sys nnn).wellFormed = true) : decode0 nnn = .sys nnn := by
  simp only [Instr.wellFormed, Bool.and_eq_true, bne_iff_ne] at h
  rw [decode0, if_neg h.1, if_neg h.2]

/-- The decoder selects the instruction's row and reads its fields back (R100); of the words of SYS, well-formedness leaves out those of CLS and RET. -/
theorem decodeWord_encode {i : Instr} (h : i.wellFormed = true) : decodeWord (encode i) = some i := by
  cases i with
  | cls | ret => rfl
  | sys nnn => simp [encode, decodeWord, decode0_of_wellFormed h]
  | jmp | call | ldi | jmpv => simp [encode, decodeWord]
  | skei | skni | mov | addi | rnd => simp [encode, decodeWord]
  | sker | sknr | drw => simp [encode, decodeWord]
  | cpy | or | and | xor | add | sub | shr | rsb | shl => simp [encode, decodeWord, decode8]
  | skp | sknp => simp [encode, decodeWord, decodeE]
  | gdt | key | sdt | sst | adi | fnt | bcd | stm | ldm => simp [encode, decodeWord, decodeF]

/-- Settles O2: a word is its two bytes, and the decoder reads an instruction's fields back from its word. -/
theorem decodeOfEncodeIsTheInstruction : Obligations.DecodeOfEncodeIsTheInstruction := by
  intro i h
  rw [decode_eq_ok_iff, msbOf_append_lsbOf]
  exact decodeWord_encode h

/-! From a word to its instruction and back, family by family: every bit of the word is in a field or in the pattern. -/

theorem encode_decode0 (nnn : Addr) :
    encode (decode0 nnn) = encNNN 0x0 nnn ∧ (decode0 nnn).wellFormed = true := by
  unfold decode0
  split_ifs with hcls hret
  · subst hcls; exact ⟨rfl, rfl⟩
  · subst hret; exact ⟨rfl, rfl⟩
  · exact ⟨rfl, Bool.and_eq_true_iff.2 ⟨bne_iff_ne.2 hcls, bne_iff_ne.2 hret⟩⟩

theorem encode_of_decode8 {x y : RegIx} {k : Nat} {i : Instr} :
    decode8 x y k = some i → encode i = encXYN 0x8 x y (BitVec.ofNat 4 k) ∧ i.wellFormed = true := by
  fun_cases decode8 x y k <;> rintro ⟨⟩ <;> exact ⟨rfl, rfl⟩

theorem encode_of_decodeE {x : RegIx} {k : Nat} {i : Instr} :
    decodeE x k = some i → encode i = encXNN 0xE x (BitVec.ofNat 8 k) ∧ i.wellFormed = true := by
  fun_cases decodeE x k <;> rintro ⟨⟩ <;> exact ⟨rfl, rfl⟩

theorem encode_of_decodeF {x : RegIx} {k : Nat} {i : Instr} :
    decodeF x k = some i → encode i = encXNN 0xF x (BitVec.ofNat 8 k) ∧ i.wellFormed = true := by
  fun_cases decodeF x k <;> rintro ⟨⟩ <;> exact ⟨rfl, rfl⟩

/-- What a word decodes to is well formed and has that word (R100). The cases here and below are the branches of `decodeWord` in their order. -/
theorem encode_of_decodeWord {w : Word} {i : Instr} :
    decodeWord w = some i → encode i = w ∧ i.wellFormed = true := by
  fun_cases decodeWord w
  case case1 hc =>
    rintro ⟨⟩
    have h := encode_decode0 (fieldNNN w)
    rwa [encNNN_of_nibble0 hc] at h
  case case2 hc | case3 hc | case13 hc | case14 hc => rintro ⟨⟩; exact ⟨encNNN_of_nibble0 hc, rfl⟩
  case case4 hc | case5 hc | case8 hc | case9 hc | case15 hc => rintro ⟨⟩; exact ⟨encXNN_of_nibble0 hc, rfl⟩
  case case6 hc hn | case11 hc hn =>
    rintro ⟨⟩
    refine ⟨?_, rfl⟩
    rw [encode, ← hn]
    exact encXYN_of_nibble0 hc
  case case16 hc => rintro ⟨⟩; exact ⟨encXYN_of_nibble0 hc, rfl⟩
  case case10 hc =>
    intro h
    have h := encode_of_decode8 h
    rwa [BitVec.ofNat_toNat, BitVec.setWidth_eq, encXYN_of_nibble0 hc] at h
  case case17 hc =>
    intro h
    have h := encode_of_decodeE h
    rwa [BitVec.ofNat_toNat, BitVec.setWidth_eq, encXNN_of_nibble0 hc] at h
  case case18 hc =>
    intro h
    have h := encode_of_decodeF h
    rwa [BitVec.ofNat_toNat, BitVec.setWidth_eq, encXNN_of_nibble0 hc] at h
  case case7 | case12 | case19 => exact nofun

/-- Settles O3: two bytes decode as their word does, and what that decodes to is well formed and has that word. -/
theorem encodeOfDecodeIsTheWord : Obligations.EncodeOfDecodeIsTheWord :=
  fun _ _ _ h => encode_of_decodeWord (decode_eq_ok_iff.1 h)

end Sys2Proof
end

section
/-! SUPPORT. The words that do not decode, family by family (30_encoding.md R97). -/

namespace Sys2Proof

theorem decode8_eq_none_iff {x y : RegIx} {k : Nat} (hk : k < 16) :
    decode8 x y k = none ↔ k ∈ [0x8, 0x9, 0xA, 0xB, 0xC, 0xD, 0xF] := by
  fun_cases decode8 x y k
  case case10 => simp only [imp_false, List.mem_cons] at *; simp; omega
  all_goals simp

theorem decodeE_eq_none_iff {x : RegIx} {k : Nat} : decodeE x k = none ↔ k ∉ [0x9E, 0xA1] := by
  fun_cases decodeE x k <;> simp_all

theorem decodeF_eq_none_iff {x : RegIx} {k : Nat} :
    decodeF x k = none ↔ k ∉ [0x07, 0x0A, 0x15, 0x18, 0x1E, 0x29, 0x33, 0x55, 0x65] := by
  fun_cases decodeF x k <;> simp_all

/-- The illegal words by their fields (R97). -/
theorem decodeWord_eq_none_iff (w : Word) :
    decodeWord w = none ↔
      ((nibble0 w).toNat = 0x5 ∧ (fieldN w).toNat ≠ 0) ∨
      ((nibble0 w).toNat = 0x8 ∧ (fieldN w).toNat ∈ [0x8, 0x9, 0xA, 0xB, 0xC, 0xD, 0xF]) ∨
      ((nibble0 w).toNat = 0x9 ∧ (fieldN w).toNat ≠ 0) ∨
      ((nibble0 w).toNat = 0xE ∧ (fieldNN w).toNat ∉ [0x9E, 0xA1]) ∨
      ((nibble0 w).toNat = 0xF ∧
        (fieldNN w).toNat ∉ [0x07, 0x0A, 0x15, 0x18, 0x1E, 0x29, 0x33, 0x55, 0x65]) := by
  fun_cases decodeWord w
  case case1 hc | case2 hc | case3 hc | case13 hc | case14 hc => simp [hc]
  case case4 hc | case5 hc | case8 hc | case9 hc | case15 hc | case16 hc => simp [hc]
  case case10 hc => rw [decode8_eq_none_iff (fieldN w).isLt]; simp [hc]
  case case17 hc => rw [decodeE_eq_none_iff]; simp [hc]
  case case18 hc => rw [decodeF_eq_none_iff]; simp [hc]
  case case6 hc hn | case11 hc hn => simp [hc, hn]
  case case7 hc hn | case12 hc hn => simpa [hc, BitVec.toNat_eq] using hn
  case case19 => have := (nibble0 w).isLt; simp only [imp_false] at *; omega

/-- Settles O5: the illegal words by their fields, and the fields in the two bytes. -/
theorem illegalWordsAreExactlyThoseListed : Obligations.IllegalWordsAreExactlyThoseListed := by
  intro msb lsb
  refine ⟨?_, fun e h => (decode_eq_error_iff.1 h).2⟩
  rw [decode_eq_error_iff, and_iff_left rfl, decodeWord_eq_none_iff, toNat_nibble0_append, toNat_fieldN_append,
    toNat_fieldNN_append]

end Sys2Proof
end

section
/-! SUPPORT. Which rows of the opcode table select a word: those of its leading digit, by what their mask leaves of it (30_encoding.md R96). -/

namespace Sys2Proof

/-! A mask clears the fields of a word and leaves its pattern. -/

theorem and_F000_eq (w : Word) : w &&& 0xF000#16 = encNNN (nibble0 w) 0 := by
  have h := encNNN_and_F000 (nibble0 w) (fieldNNN w)
  rwa [encNNN_of_nibble0 rfl] at h

theorem and_F00F_eq (w : Word) : w &&& 0xF00F#16 = encXYN (nibble0 w) 0 0 (fieldN w) := by
  have h := encXYN_and_F00F (nibble0 w) (fieldX w) (fieldY w) (fieldN w)
  rwa [encXYN_of_nibble0 rfl] at h

theorem and_F0FF_eq (w : Word) : w &&& 0xF0FF#16 = encXNN (nibble0 w) 0 (fieldNN w) := by
  have h := encXNN_and_F0FF (nibble0 w) (fieldX w) (fieldNN w)
  rwa [encXNN_of_nibble0 rfl] at h

/-! Below the leading digit a mask leaves the last digit, the low byte, or nothing. -/

theorem encXYN_right_inj {c : BitVec 4} {x y : RegIx} {n m : BitVec 4} :
    encXYN c x y n = encXYN c x y m ↔ n = m :=
  ⟨fun h => by simpa using congrArg fieldN h, congrArg _⟩

theorem encXNN_right_inj {c : BitVec 4} {x : RegIx} {a b : Byte} : encXNN c x a = encXNN c x b ↔ a = b :=
  ⟨fun h => by simpa using congrArg fieldNN h, congrArg _⟩

theorem encNNN_right_inj {c : BitVec 4} {a b : Addr} : encNNN c a = encNNN c b ↔ a = b :=
  ⟨fun h => by simpa using congrArg fieldNNN h, congrArg _⟩

theorem and_F00F_eq_iff {v w : Word} (h : nibble0 v = nibble0 w) :
    w &&& 0xF00F#16 = v &&& 0xF00F#16 ↔ (fieldN v).toNat = (fieldN w).toNat := by
  rw [and_F00F_eq, and_F00F_eq, h, encXYN_right_inj, ← BitVec.toNat_eq, eq_comm]

theorem and_F0FF_eq_iff {v w : Word} (h : nibble0 v = nibble0 w) :
    w &&& 0xF0FF#16 = v &&& 0xF0FF#16 ↔ (fieldNN v).toNat = (fieldNN w).toNat := by
  rw [and_F0FF_eq, and_F0FF_eq, h, encXNN_right_inj, ← BitVec.toNat_eq, eq_comm]

/-! The rows of one leading digit. -/

/-- The rows whose patterns begin with the digit `k`, in the order of the table. -/
def rowsOf (k : Nat) : List OpcodeRow := opcodeRows.filter fun r => (nibble0 r.value).toNat == k

theorem opcodeRows_value_and_mask : ∀ r ∈ opcodeRows, r.value &&& r.mask = r.value := by decide

theorem opcodeRows_nibble0_mask : ∀ r ∈ opcodeRows, nibble0 r.mask = 0xF#4 := by decide

/-- Every mask holds `n0`, so a row selects only words of its own leading digit. -/
theorem nibble0_of_selects {r : OpcodeRow} {w : Word} (hr : r ∈ opcodeRows) (h : r.selects w = true) :
    nibble0 r.value = nibble0 w := by
  have hmask : nibble0 r.mask = BitVec.allOnes 4 := opcodeRows_nibble0_mask r hr
  calc nibble0 r.value = nibble0 (w &&& r.mask) := by rw [eq_of_beq h]
    _ = nibble0 w &&& nibble0 r.mask := BitVec.extractLsb'_and
    _ = nibble0 w := by rw [hmask, BitVec.and_allOnes]

section
variable {w : Word} {k : Nat} (hk : (nibble0 w).toNat = k)
include hk

/-- A word is tested with effect only against the rows of its own digit. -/
theorem find?_opcodeRows : opcodeRows.find? (·.selects w) = (rowsOf k).find? (·.selects w) := by
  rw [rowsOf, List.find?_filter]
  refine List.find?_congr fun r hr => ?_
  by_cases h : r.selects w = true
  · simp [h, nibble0_of_selects hr h, hk]
  · simp [h]

/-- A row of the word's digit selects it when its mask leaves the same of the word as of the row's pattern. -/
theorem selects_of_mem_rowsOf {r : OpcodeRow} (hr : r ∈ rowsOf k) :
    nibble0 r.value = nibble0 w ∧ r.selects w = (w &&& r.mask == r.value &&& r.mask) := by
  obtain ⟨hmem, hval⟩ := List.mem_filter.1 hr
  refine ⟨BitVec.eq_of_toNat_eq ((eq_of_beq hval).trans hk.symm), ?_⟩
  rw [opcodeRows_value_and_mask r hmem, OpcodeRow.selects]

/-- A row that tests the leading digit alone selects every word of that digit. -/
theorem selects_of_mask_F000 {r : OpcodeRow} (hr : r ∈ rowsOf k) (hmask : r.mask = 0xF000#16) :
    r.selects w = true := by
  obtain ⟨hnib, hsel⟩ := selects_of_mem_rowsOf hk hr
  rw [hsel, hmask, and_F000_eq, and_F000_eq, hnib, beq_self_eq_true]

theorem find?_of_mask_F000 {r : OpcodeRow} (hrows : rowsOf k = [r]) (hmask : r.mask = 0xF000#16) :
    opcodeRows.find? (·.selects w) = some r := by
  have hsel := selects_of_mask_F000 hk (hrows ▸ List.mem_singleton_self r) hmask
  rw [find?_opcodeRows hk, hrows, List.find?_singleton, if_pos hsel]

/-- The rows of a digit that share a mask are told apart by what the mask leaves below the digit. -/
theorem find?_of_mask {mask : Word} {key : Word → Nat} (hmask : ∀ r ∈ rowsOf k, r.mask = mask)
    (hkey : ∀ {v}, nibble0 v = nibble0 w → (w &&& mask = v &&& mask ↔ key v = key w)) :
    opcodeRows.find? (·.selects w) = (rowsOf k).find? fun r => key r.value == key w := by
  rw [find?_opcodeRows hk]
  refine List.find?_congr fun r hr => ?_
  obtain ⟨hnib, hsel⟩ := selects_of_mem_rowsOf hk hr
  rw [hsel, hmask r hr, Bool.eq_iff_iff, beq_iff_eq, beq_iff_eq, hkey hnib]

theorem find?_of_mask_F00F (hmask : ∀ r ∈ rowsOf k, r.mask = 0xF00F#16) :
    opcodeRows.find? (·.selects w) = (rowsOf k).find? fun r => (fieldN r.value).toNat == (fieldN w).toNat :=
  find?_of_mask hk (key := fun v => (fieldN v).toNat) hmask and_F00F_eq_iff

theorem find?_of_mask_F0FF (hmask : ∀ r ∈ rowsOf k, r.mask = 0xF0FF#16) :
    opcodeRows.find? (·.selects w) = (rowsOf k).find? fun r => (fieldNN r.value).toNat == (fieldNN w).toNat :=
  find?_of_mask hk (key := fun v => (fieldNN v).toNat) hmask and_F0FF_eq_iff

end

/-! Each family of the decoder selects as the rows of its digit do. -/

/-- No row is selected by a value that is the key of none. -/
theorem find?_eq_none_of_notMem_keys {rows : List OpcodeRow} {key : OpcodeRow → Nat} {k : Nat} (keys : List Nat)
    (hkeys : rows.map key = keys) (h : k ∉ keys) : rows.find? (fun r => key r == k) = none := by
  subst hkeys
  simpa using h

/-- The rows of CLS and RET select one word each. -/
theorem selects_mask_FFFF {m : String} {v w : Word} : (⟨m, v, 0xFFFF#16⟩ : OpcodeRow).selects w = true ↔ w = v := by
  rw [OpcodeRow.selects, beq_iff_eq, show w &&& 0xFFFF#16 = w from BitVec.and_allOnes]

theorem mnemonic_decode0 (nnn : Addr) :
    some (decode0 nnn).mnemonic = (opcodeRows.find? (·.selects (encNNN 0x0 nnn))).map OpcodeRow.mnemonic := by
  fun_cases decode0 nnn
  case case1 h => subst h; rfl
  case case2 h => subst h; rfl
  case case3 hcls hret =>
    have hk : (nibble0 (encNNN 0x0 nnn)).toNat = 0x0 := by rw [nibble0_encNNN]; rfl
    have hrows : rowsOf 0x0 = [⟨"CLS", 0x00E0, 0xFFFF⟩, ⟨"RET", 0x00EE, 0xFFFF⟩, ⟨"SYS", 0x0000, 0xF000⟩] := rfl
    have notCls : ¬ (⟨"CLS", 0x00E0, 0xFFFF⟩ : OpcodeRow).selects (encNNN 0x0 nnn) = true := fun h =>
      hcls ((encNNN_right_inj (b := 0x0E0)).1 (selects_mask_FFFF.1 h))
    have notRet : ¬ (⟨"RET", 0x00EE, 0xFFFF⟩ : OpcodeRow).selects (encNNN 0x0 nnn) = true := fun h =>
      hret ((encNNN_right_inj (b := 0x0EE)).1 (selects_mask_FFFF.1 h))
    have isSys : (⟨"SYS", 0x0000, 0xF000⟩ : OpcodeRow).selects (encNNN 0x0 nnn) = true :=
      selects_of_mask_F000 hk (by simp [hrows]) rfl
    rw [find?_opcodeRows hk, hrows]
    simp only [List.find?_cons, notCls, notRet, isSys]
    rfl

theorem mnemonic_decode8 (x y : RegIx) (k : Nat) :
    (decode8 x y k).map Instr.mnemonic =
      ((rowsOf 0x8).find? fun r => (fieldN r.value).toNat == k).map OpcodeRow.mnemonic := by
  fun_cases decode8 x y k
  case case10 => rw [find?_eq_none_of_notMem_keys [0x0, 0x1, 0x2, 0x3, 0x4, 0x5, 0x6, 0x7, 0xE] rfl (by simp_all)]; rfl
  all_goals rfl

theorem mnemonic_decodeE (x : RegIx) (k : Nat) :
    (decodeE x k).map Instr.mnemonic =
      ((rowsOf 0xE).find? fun r => (fieldNN r.value).toNat == k).map OpcodeRow.mnemonic := by
  fun_cases decodeE x k
  case case3 => rw [find?_eq_none_of_notMem_keys [0x9E, 0xA1] rfl (by simp_all)]; rfl
  all_goals rfl

theorem mnemonic_decodeF (x : RegIx) (k : Nat) :
    (decodeF x k).map Instr.mnemonic =
      ((rowsOf 0xF).find? fun r => (fieldNN r.value).toNat == k).map OpcodeRow.mnemonic := by
  fun_cases decodeF x k
  case case10 =>
    rw [find?_eq_none_of_notMem_keys [0x07, 0x0A, 0x15, 0x18, 0x1E, 0x29, 0x33, 0x55, 0x65] rfl (by simp_all)]; rfl
  all_goals rfl

/-- The mnemonic of a word is that of the row selected first, one leading digit after the other (R96). -/
theorem mnemonic_decodeWord (w : Word) :
    (decodeWord w).map Instr.mnemonic = (opcodeRows.find? (·.selects w)).map OpcodeRow.mnemonic := by
  fun_cases decodeWord w
  case case1 hk =>
    have h := mnemonic_decode0 (fieldNNN w)
    rwa [encNNN_of_nibble0 hk] at h
  case case2 hk | case3 hk | case13 hk | case14 hk => rw [find?_of_mask_F000 hk rfl rfl]; rfl
  case case4 hk | case5 hk | case8 hk | case9 hk | case15 hk | case16 hk =>
    rw [find?_of_mask_F000 hk rfl rfl]; rfl
  case case6 hk hn | case11 hk hn => rw [find?_of_mask_F00F hk (by decide), hn]; rfl
  case case7 hk hn | case12 hk hn =>
    have hn' : (fieldN w).toNat ∉ [0x0] := by simpa [BitVec.toNat_eq] using hn
    rw [find?_of_mask_F00F hk (by decide), find?_eq_none_of_notMem_keys [0x0] rfl hn']
    rfl
  case case10 hk => rw [find?_of_mask_F00F hk (by decide)]; exact mnemonic_decode8 ..
  case case17 hk => rw [find?_of_mask_F0FF hk (by decide)]; exact mnemonic_decodeE ..
  case case18 hk => rw [find?_of_mask_F0FF hk (by decide)]; exact mnemonic_decodeF ..
  case case19 => have := (nibble0 w).isLt; simp only [imp_false] at *; omega

/-- Settles O4: the two bytes decode as their word does, and the word selects its row digit by digit. -/
theorem decodePartitionIsTheOpcodeTable : Obligations.DecodePartitionIsTheOpcodeTable := by
  intro w
  rw [toOption_decode, msbOf_append_lsbOf]
  exact mnemonic_decodeWord w

end Sys2Proof
end

section
/-! SUPPORT. A cycle on an illegal word (30_encoding.md R97; 40_cycle_and_control_flow.md R120; 60_exceptions.md R242, R243). -/

namespace Sys2Proof.Machine

theorem WritesOnly.halt (r : FaultRecord) (s : State) : WritesOnly [.status, .fault] s (halt r s) := by
  simp [WritesOnly, UnchangedExcept, Part.forall_iff, Part.same]

/-- The address and the bytes that a fault after the fetch records are those of the fetch (R242). -/
theorem executeRecord_of_fetched (k : Fault) (s : State) :
    ({ s with pc := BitVec.ofNat 12 (s.pc.toNat + 2) } : State).executeRecord k =
      { kind := k, pc0 := s.pc, msb := some (s.byte s.pc.toNat), lsb := some (s.byte (s.pc.toNat + 1)) } := by
  simp only [State.executeRecord, ofNat_pc_add_two, pc_add_two_sub_two]
  rfl

theorem cpuStep_of_running {s : State} (h : s.status = .running) : cpuStep s = cycle s := by
  simp [cpuStep, h]

/-- The fetch of an illegal word has moved `pc` when the fault is raised (R243). -/
theorem cycle_of_decode_error {s : State} {e : DecodeError} (hpc : s.pc.toNat < 4094)
    (h : decode (s.byte s.pc.toNat) (s.byte (s.pc.toNat + 1)) = .error e) :
    cycle s = .next (raise .decodeError { s with pc := BitVec.ofNat 12 (s.pc.toNat + 2) }) := by
  simp [cycle, fetch_of_lt hpc, h]

/-- Settles O9: the step is a cycle on the state with its boundary moved on, which moves `pc` and then only halts. -/
theorem illegalWordHaltsWithDecodeError : Obligations.IllegalWordHaltsWithDecodeError := by
  intro s s1 inp e h hr hrun hpc hd
  have hs1 : s1 = { s with env := s1.env } := by simpa [h] using (nextEvent_frame s).1
  generalize s1.env = env at hs1 hr
  subst hs1
  obtain ⟨-, rfl⟩ := decode_eq_error_iff.1 hd
  have hstep := (step_of_cpuStep h hr).trans (cpuStep_of_running (s := State.withInputs _ inp) hrun)
  refine ⟨_, hstep.trans (cycle_of_decode_error (s := State.withInputs _ inp) hpc hd), rfl,
    toNat_ofNat_addr (Nat.add_lt_add_right hpc 2), ?record, rfl, rfl, ?frame⟩
  case record => exact congrArg some (executeRecord_of_fetched .decodeError _)
  case frame =>
    exact ((((WritesOnly.set_env s _).append (.set_pc _ _)).append (.halt _ _)).mono (by simp)).unchangedExcept

end Sys2Proof.Machine
end

section
/-! SUPPORT. The control transfers: the next state of RET, SYS, JMP, CALL, JMPV and the register skips, or the halt of their fault (40_cycle_and_control_flow.md R123, R126 to R134). -/

namespace Sys2Proof.Machine

theorem commit_ok (s t : State) : commit s (.ok t) = .next t := rfl

/-- The halt of the statements is what an execute stage raises (R243). -/
theorem commit_error (s : State) (k : Fault) : commit s (.error k) = .next (haltedBy k s) := rfl

theorem push_of_lt {a : Word} {s : State} (h : s.stack.length < 64) :
    push a s = .ok { s with stack := s.stack ++ [a] } :=
  if_neg (Nat.not_le.2 h)

theorem push_of_ge {a : Word} {s : State} (h : 64 ≤ s.stack.length) : push a s = .error .stackOverflow :=
  if_pos h

/-- Settles O17: RET is the pop and a jump to what it popped. -/
theorem retPopsThePc : Obligations.RetPopsThePc := by
  intro s
  refine ⟨fun below a hst ha => ?popped, fun hst => ?empty⟩
  case popped => rw [exec, execRet, pop_of_concat hst, Except.bind, jump_of_lt ha, BitVec.ofNat_toNat, commit_ok]
  case empty => rw [exec, execRet, pop_of_nil hst, Except.bind, commit_error]

/-- Settles O18: SYS is nothing but a raise, whose record is the one of an execute stage. -/
theorem sysHaltsWithUnsupportedInstruction : Obligations.SysHaltsWithUnsupportedInstruction :=
  fun _ s => ⟨raise .unsupportedInstruction s, rfl, raise_status _ s, rfl, (WritesOnly.halt _ s).unchangedExcept⟩

/-- Settles O19: a 12-bit target is in memory. -/
theorem jmpSetsThePc : Obligations.JmpSetsThePc := by
  intro nnn s
  rw [exec, execJmp, jump_toNat, commit_ok]

/-- Settles O20: CALL is the push, and on room a jump to a 12-bit target. -/
theorem callPushesTheReturnAddress : Obligations.CallPushesTheReturnAddress := by
  intro nnn s
  refine ⟨fun hroom => ?pushed, fun hfull => ?full⟩
  case pushed => rw [exec, execCall, push_of_lt hroom, Except.bind, jump_toNat, commit_ok, zext16]
  case full => rw [exec, execCall, push_of_ge hfull, Except.bind, commit_error]

/-- Settles O21: CALL leaves the return address on top of the old stack, and its 12 bits survive the 16 of the entry. -/
theorem retUndoesCall : Obligations.RetUndoesCall := by
  intro nnn s t hroom hcall
  rw [(callPushesTheReturnAddress nnn s).1 hroom] at hcall
  cases hcall
  have hpc : (s.pc.setWidth 16).toNat < 4096 :=
    (BitVec.toNat_setWidth_of_le (by decide)).trans_lt s.pc.isLt
  rw [(retPopsThePc _).1 s.stack (s.pc.setWidth 16) rfl hpc, BitVec.setWidth_setWidth_of_le _ (by decide),
    BitVec.setWidth_eq]

/-- Settles O22: JMPV is a jump to the full sum. -/
theorem jmpvAddsV0WithoutWrapping : Obligations.JmpvAddsV0WithoutWrapping := by
  intro nnn s
  refine ⟨fun hin => ?inside, fun hout => ?outside⟩
  case inside => rw [exec, execJmpv, jump_of_lt hin, commit_ok]
  case outside => rw [exec, execJmpv, jump_of_ge hout, commit_error]

/-- An instruction that is a conditional skip and nothing more skips when its condition holds (R123). -/
theorem skipsWhen_of_skipIf {c : Prop} {b : Bool} {i : Instr} {s : State} (hexec : exec i s = commit s (skipIf b s))
    (hb : b = true ↔ c) : SkipsWhen c i s := by
  rw [SkipsWhen, hexec, ← hb]
  refine ⟨fun hc hin => ?inside, fun hc hout => ?outside, fun hc => ?notTaken⟩
  case inside => rw [hc, skipIf, if_pos rfl, skip, advance_of_lt hin, ofNat_pc_add_two, commit_ok]
  case outside => rw [hc, skipIf, if_pos rfl, skip, advance_of_ge hout, commit_error]
  case notTaken => rw [skipIf, if_neg hc, commit_ok]

/-- Settles O23: each of the four is a conditional skip on its comparison. -/
theorem registerSkipsCompareAndSkip : Obligations.RegisterSkipsCompareAndSkip :=
  fun _ _ _ _ => ⟨skipsWhen_of_skipIf rfl beq_iff_eq, skipsWhen_of_skipIf rfl bne_iff_ne,
    skipsWhen_of_skipIf rfl beq_iff_eq, skipsWhen_of_skipIf rfl bne_iff_ne⟩

end Sys2Proof.Machine
end

section
/-! SUPPORT. The step that runs a cycle: which instruction it executes, and where it cannot fetch one (40_cycle_and_control_flow.md R120; 60_exceptions.md R242, R243). -/

namespace Sys2Proof.Machine

/-- In `Running` a `cpu_step` is a cycle on the state with its boundary moved on and the inputs presented (R120). -/
theorem step_of_running {s s1 : State} {inp : Inputs} (h : nextEvent s = (.cpuStep inp, s1))
    (hr : s1.env.hasReset = true) (hrun : s.status = .running) :
    ∃ env, s1.withInputs inp = { s with env := env } ∧ step s = cycle { s with env := env } := by
  have hs1 : s1 = { s with env := s1.env } := by simpa [h] using (nextEvent_frame s).1
  have hin : s1.withInputs inp = { s with env := (s1.withInputs inp).env } :=
    congrArg (State.withInputs · inp) hs1
  refine ⟨_, hin, ?_⟩
  rw [step_of_cpuStep h hr, ← hin]
  exact cpuStep_of_running ((congrArg State.status hs1).trans hrun)

theorem cycle_of_decode_ok {s : State} {i : Instr} (hpc : s.pc.toNat < 4094)
    (h : decode (s.byte s.pc.toNat) (s.byte (s.pc.toNat + 1)) = .ok i) :
    cycle s = exec i { s with pc := BitVec.ofNat 12 (s.pc.toNat + 2) } := by
  simp [cycle, fetch_of_lt hpc, h]

/-- Where no two bytes are left the cycle halts before `pc` moves, and records no bytes (R120, R242). -/
theorem cycle_of_ge {s : State} (hpc : 4094 ≤ s.pc.toNat) :
    cycle s = .next (halt (s.fetchRecord .outOfBounds) s) := by
  simp [cycle, fetch_of_ge hpc]

/-- Settles O7: the step is a cycle, which executes what it fetches and decodes; the boundary is no part of either. -/
theorem stepExecutesTheDecodedInstruction : Obligations.StepExecutesTheDecodedInstruction := by
  intro s s1 inp i h hr hrun hpc hd
  obtain ⟨env, hin, hstep⟩ := step_of_running h hr hrun
  rw [hstep, hin]
  exact cycle_of_decode_ok (s := { s with env := env }) hpc hd

/-- Settles O8: the step is a cycle that fails in its fetch stage. -/
theorem fetchAtTheTopOfMemoryHalts : Obligations.FetchAtTheTopOfMemoryHalts := by
  intro s s1 inp h hr hrun hpc
  obtain ⟨env, -, hstep⟩ := step_of_running h hr hrun
  refine ⟨_, hstep.trans (cycle_of_ge (s := { s with env := env }) hpc), rfl, rfl, ?frame⟩
  case frame => exact (((WritesOnly.set_env s env).append (.halt _ _)).mono (by simp)).unchangedExcept

/-- Settles O25: the bytes decode to the JMP they encode (R100), which puts back the `pc` that the fetch moved. -/
theorem selfJumpIsAParkedState : Obligations.SelfJumpIsAParkedState := by
  intro s s1 inp h hr hrun hpc hmsb hlsb
  have hd : decode (s.byte s.pc.toNat) (s.byte (s.pc.toNat + 1)) = .ok (.jmp s.pc) := by
    rw [hmsb, hlsb]
    exact decodeOfEncodeIsTheInstruction (.jmp s.pc) rfl
  obtain ⟨env, -, hstep⟩ := step_of_running h hr hrun
  rw [hstep, cycle_of_decode_ok (s := { s with env := env }) hpc hd]
  exact ⟨_, jmpSetsThePc s.pc _, rfl⟩

end Sys2Proof.Machine
end

section
/-! SUPPORT. The register instructions: the two shapes they answer in, what the arithmetic and the reported bits are as numbers, and the statements of 41_register_alu.md (R140 to R153). -/

namespace Sys2Proof.Machine

/-! The shapes: one register written, or a result and then VF (R141). -/

/-- What holds of the byte written holds of the register afterwards, and no other part changes. -/
theorem exec_writes_reg {i : Instr} {s : State} {x : RegIx} {b : Byte} (P : Byte → Prop)
    (hexec : exec i s = .next (s.setReg x b)) (hb : P b) :
    ∃ t, exec i s = .next t ∧ P (t.reg x) ∧ UnchangedExcept [.reg x] s t :=
  ⟨s.setReg x b, hexec, by rwa [State.reg_setReg_same], (WritesOnly.setReg s x b).unchangedExcept⟩

/-- VF is written second: it holds the flag whatever `x` is, and the result stays where `x` is not 15 (R141). -/
theorem exec_writes_result_and_flag {i : Instr} {s : State} {x : RegIx} {b : Byte} {f : Bool} (P Q : Byte → Prop)
    (hexec : exec i s = .next (s.setResultFlag x b f)) (hb : P b) (hf : Q (bitByte f)) :
    ∃ t, exec i s = .next t ∧ (x ≠ 15 → P (t.reg x)) ∧ Q (t.reg 15) ∧ UnchangedExcept [.reg x, .reg 15] s t := by
  refine ⟨s.setResultFlag x b f, hexec, fun hx => ?result, ?flag, (WritesOnly.setResultFlag s x b f).unchangedExcept⟩
  case result => rwa [State.reg_setResultFlag_result s b f hx]
  case flag => rwa [← vf, State.reg_setResultFlag_vf]

/-! The arithmetic in numbers. -/

theorem toNat_sub_byte (a b : Byte) : (a - b).toNat = (a.toNat + 256 - b.toNat) % 256 := by
  rw [BitVec.toNat_sub', ← Nat.add_sub_assoc b.isLt.le]

theorem toNat_shr_one (a : Byte) : (a >>> 1).toNat = a.toNat / 2 := by
  rw [BitVec.toNat_ushiftRight, Nat.shiftRight_eq_div_pow, pow_one]

theorem toNat_shl_one (a : Byte) : (a <<< 1).toNat = a.toNat * 2 % 256 := by
  rw [BitVec.toNat_shiftLeft, Nat.shiftLeft_eq, pow_one]

/-! The reported bits in VF (R140). -/

theorem bitByte_carryOut (a b : Byte) : bitByte (carryOut a b) = if a.toNat + b.toNat > 255 then 1 else 0 := by
  simp [bitByte, carryOut]

theorem bitByte_noBorrow (a b : Byte) : bitByte (noBorrow a b) = if a.toNat ≥ b.toNat then 1 else 0 := by
  simp [bitByte, noBorrow]

theorem toNat_bitByte_getLsbD (a : Byte) (k : Nat) : (bitByte (a.getLsbD k)).toNat = a.toNat / 2 ^ k % 2 := by
  rw [← Nat.toNat_testBit, BitVec.testBit_toNat]
  cases a.getLsbD k <;> rfl

theorem toNat_bitByte_shiftedOutRight (a : Byte) : (bitByte (shiftedOutRight a)).toNat = a.toNat % 2 := by
  rw [shiftedOutRight, toNat_bitByte_getLsbD, pow_zero, Nat.div_one]

/-- Bit 7 is the top bit of a byte, so nothing stands above it. -/
theorem toNat_bitByte_shiftedOutLeft (a : Byte) : (bitByte (shiftedOutLeft a)).toNat = a.toNat / 128 := by
  have htop : a.toNat / 128 < 2 := Nat.div_lt_of_lt_mul a.isLt
  rw [shiftedOutLeft, toNat_bitByte_getLsbD]
  exact Nat.mod_eq_of_lt htop

/-! The statements. -/

/-- Settles O28: each writes a result and a reported bit of the old values. -/
theorem addAndSubtractSetTheFlag : Obligations.AddAndSubtractSetTheFlag :=
  fun _ _ _ =>
    ⟨exec_writes_result_and_flag (·.toNat = _) (· = _) rfl (BitVec.toNat_add _ _) (bitByte_carryOut _ _),
      exec_writes_result_and_flag (·.toNat = _) (· = _) rfl (toNat_sub_byte _ _) (bitByte_noBorrow _ _),
      exec_writes_result_and_flag (·.toNat = _) (· = _) rfl (toNat_sub_byte _ _) (bitByte_noBorrow _ _)⟩

/-- Settles O29: each writes the shifted byte and the bit that leaves it; `y` plays no part in the execution. -/
theorem shiftsPutTheLostBitInTheFlag : Obligations.ShiftsPutTheLostBitInTheFlag :=
  fun _ _ _ =>
    ⟨exec_writes_result_and_flag (·.toNat = _) (·.toNat = _) rfl (toNat_shr_one _) (toNat_bitByte_shiftedOutRight _),
      exec_writes_result_and_flag (·.toNat = _) (·.toNat = _) rfl (toNat_shl_one _) (toNat_bitByte_shiftedOutLeft _)⟩

/-- Settles O26: each writes `V[x]` alone; the 8-bit sum is the sum modulo 256. -/
theorem movesWriteOneRegister : Obligations.MovesWriteOneRegister :=
  fun _ y nn s =>
    ⟨exec_writes_reg (· = nn) rfl rfl, exec_writes_reg (·.toNat = _) rfl (BitVec.toNat_add _ _),
      exec_writes_reg (· = s.reg y) rfl rfl⟩

/-- Settles O27: each writes `V[x]` alone, so VF only where it is the result register. -/
theorem logicActsBitByBitAndSetsNoFlag : Obligations.LogicActsBitByBitAndSetsNoFlag :=
  fun x y s =>
    ⟨exec_writes_reg (fun r => ∀ k, r.getLsbD k = ((s.reg x).getLsbD k || (s.reg y).getLsbD k)) rfl
        fun _ => BitVec.getLsbD_or,
      exec_writes_reg (fun r => ∀ k, r.getLsbD k = ((s.reg x).getLsbD k && (s.reg y).getLsbD k)) rfl
        fun _ => BitVec.getLsbD_and,
      exec_writes_reg (fun r => ∀ k, r.getLsbD k = ((s.reg x).getLsbD k ^^ (s.reg y).getLsbD k)) rfl
        fun _ => BitVec.getLsbD_xor⟩

/-- Settles O30: a byte masked by `nn` has no bit outside `nn`, whatever the byte is. -/
theorem rndMasksTheSampledByte : Obligations.RndMasksTheSampledByte := by
  intro x nn s
  have hmask : (s.env.inputs.rand &&& nn) &&& ~~~nn = 0 := by
    rw [BitVec.and_assoc, BitVec.and_not_self]
    exact BitVec.and_zero
  obtain ⟨t, ht, hreg, hframe⟩ := exec_writes_reg (i := .rnd x nn) (· = s.env.inputs.rand &&& nn) rfl rfl
  exact ⟨t, ht, hreg, hreg ▸ hmask, hframe⟩

end Sys2Proof.Machine
end

section
/-! SUPPORT. The address register and the memory instructions: the sum of ADI, the bytes that BCD and STM leave, the registers that LDM fills, and the statements of 42_index_and_memory.md (R170 to R176). -/

namespace Sys2Proof.Machine

/-! The writes of I (R171 to R173). -/

/-- What I holds afterwards is the number written, and no other part changes. -/
theorem exec_writes_i {i : Instr} {s : State} {a : Word} {n : Nat} (hexec : exec i s = .next { s with i := a })
    (ha : a.toNat = n) : ∃ t, exec i s = .next t ∧ t.i.toNat = n ∧ UnchangedExcept [.i] s t :=
  ⟨_, hexec, ha, (WritesOnly.set_i s a).unchangedExcept⟩

theorem toNat_zext16 (nnn : Addr) : (zext16 nnn).toNat = nnn.toNat := BitVec.toNat_setWidth_of_le (by decide)

/-- Five times the largest byte is far below 65536, so FNT never wraps (R173). -/
theorem toNat_glyphAddress (b : Byte) : (BitVec.ofNat 16 (Config.glyphBytes * b.toNat)).toNat = 5 * b.toNat := by
  have hb : b.toNat < 256 := b.isLt
  exact Nat.mod_eq_of_lt (show 5 * b.toNat < 2 ^ 16 by omega)

/-- Settles O31: each writes I alone, a value of 16 bits. -/
theorem ldiAndFntWriteTheAddressRegister : Obligations.LdiAndFntWriteTheAddressRegister :=
  fun x nnn s => ⟨exec_writes_i rfl (toNat_zext16 nnn), exec_writes_i rfl (toNat_glyphAddress (s.reg x))⟩

/-- ADI writes the same sum under both values of the parameter (R172). -/
@[simp] theorem addToI_i (setsVF : Bool) (x : RegIx) (s : State) :
    (addToI setsVF x s).i = BitVec.ofNat 16 (s.i.toNat + (s.reg x).toNat) := by
  cases setsVF <;> rfl

theorem reg_addToI_false (x q : RegIx) (s : State) : (addToI false x s).reg q = s.reg q := rfl

/-- VF is written after the sum is read, so it holds the overflow bit also where it is the operand (R172). -/
theorem reg_addToI_true_vf (x : RegIx) (s : State) :
    (addToI true x s).reg vf = bitByte (overflow16 s.i (s.reg x)) :=
  State.reg_setFlag_vf _ _

theorem bitByte_overflow16 (i : Word) (b : Byte) :
    bitByte (overflow16 i b) = if i.toNat + b.toNat > 65535 then 1 else 0 := by
  simp [bitByte, overflow16]

/-- Settles O32: the parameter decides about VF and about nothing else. -/
theorem adiAddsToTheAddressRegister : Obligations.AdiAddsToTheAddressRegister := by
  intro x s
  refine ⟨addToI Config.fx1eSetsVF x s, rfl, ?sum, fun hset => ?flag, fun hset => ?noFlag, ?frame⟩
  case sum => rw [addToI_i, BitVec.toNat_ofNat]
  case flag => rw [hset, ← vf, reg_addToI_true_vf, bitByte_overflow16]
  case noFlag => rw [hset, reg_addToI_false]
  case frame =>
    refine ((WritesOnly.addToI _ x s).mono ?_).unchangedExcept
    split_ifs <;> simp [vf]

/-! The halt of the block operations: the range is checked before any write (R174 to R176). -/

theorem execBcd_of_ge {x : RegIx} {s : State} (h : 4096 ≤ s.dataAddr 2) :
    execBcd x s = .next (haltedBy .outOfBounds s) := by
  rw [execBcd, if_pos h, commit_error]

theorem execStm_of_ge {x : RegIx} {s : State} (h : 4096 ≤ s.dataAddr x) :
    execStm x s = .next (haltedBy .outOfBounds s) := by
  rw [execStm, if_pos h, commit_error]

theorem execLdm_of_ge {x : RegIx} {s : State} (h : 4096 ≤ s.dataAddr x) :
    execLdm x s = .next (haltedBy .outOfBounds s) := by
  rw [execLdm, if_pos h, commit_error]

/-! The bytes BCD leaves (R174). -/

theorem toNat_byteAfterBcd_zero (x : RegIx) (s : State) :
    (byteAfterBcd x s (s.dataAddr 0)).toNat = (s.reg x).toNat / 100 := by
  have hb : (s.reg x).toNat < 256 := (s.reg x).isLt
  rw [byteAfterBcd, if_pos rfl, BitVec.toNat_ofNat]
  omega

theorem toNat_byteAfterBcd_one (x : RegIx) (s : State) :
    (byteAfterBcd x s (s.dataAddr 1)).toNat = (s.reg x).toNat / 10 % 10 := by
  rw [byteAfterBcd, if_neg (by simp [State.dataAddr_inj]), if_pos rfl, BitVec.toNat_ofNat]
  omega

theorem toNat_byteAfterBcd_two (x : RegIx) (s : State) :
    (byteAfterBcd x s (s.dataAddr 2)).toNat = (s.reg x).toNat % 10 := by
  rw [byteAfterBcd, if_neg (by simp [State.dataAddr_inj]), if_neg (by simp [State.dataAddr_inj]), if_pos rfl,
    BitVec.toNat_ofNat]
  omega

theorem byteAfterBcd_outside (x : RegIx) {s : State} {a : Nat} (h : a < s.dataAddr 0 ∨ s.dataAddr 0 + 3 ≤ a) :
    byteAfterBcd x s a = s.byte a := by
  have hne (k : Nat) (hk : k < 3) : a ≠ s.dataAddr k := by
    simp only [State.dataAddr] at h ⊢
    omega
  rw [byteAfterBcd, if_neg (hne 0 (by decide)), if_neg (hne 1 (by decide)), if_neg (hne 2 (by decide))]

/-- Settles O33: `byteAfterBcd` holds the digits at the three addresses, and memory as it was elsewhere. -/
theorem bcdStoresTheDecimalDigits : Obligations.BcdStoresTheDecimalDigits := by
  intro x s
  refine ⟨fun hin => ?inside, execBcd_of_ge⟩
  obtain ⟨t, ht, hbytes, hw⟩ := execBcd_of_lt (x := x) hin
  refine ⟨t, ht, ?hundreds, ?tens, ?units, fun a ha => ?outside, hw.unchangedExcept⟩
  case hundreds => rw [hbytes, toNat_byteAfterBcd_zero]
  case tens => rw [hbytes, toNat_byteAfterBcd_one]
  case units => rw [hbytes, toNat_byteAfterBcd_two]
  case outside => rw [hbytes, byteAfterBcd_outside x ha]

/-! The bytes STM leaves (R175). -/

theorem byteAfterStm_dataAddr {x k : RegIx} (s : State) (h : k ≤ x) : byteAfterStm x s (s.dataAddr k) = s.reg k := by
  have hoff : s.dataAddr k - s.dataAddr 0 = k := Nat.add_sub_add_left s.i.toNat k 0
  have hbase : s.dataAddr 0 ≤ s.dataAddr k := Nat.add_le_add_left (Nat.zero_le k) _
  rw [byteAfterStm, dif_pos ⟨hbase, hoff.trans_le h⟩]
  exact congrArg s.reg (Fin.ext hoff)

theorem byteAfterStm_outside {x : RegIx} {s : State} {a : Nat}
    (h : a < s.dataAddr 0 ∨ s.dataAddr 0 + (x.val + 1) ≤ a) : byteAfterStm x s a = s.byte a := by
  rw [byteAfterStm, dif_neg (by omega)]

/-- Settles O34: `byteAfterStm` holds the registers in the block, and memory as it was elsewhere. -/
theorem stmStoresTheRegisterBlock : Obligations.StmStoresTheRegisterBlock := by
  intro x s
  refine ⟨fun hin => ?inside, execStm_of_ge⟩
  obtain ⟨t, ht, hbytes, hw⟩ := execStm_of_lt hin
  refine ⟨t, ht, fun k hk => ?block, fun a ha => ?outside, hw.unchangedExcept⟩
  case block => rw [hbytes, byteAfterStm_dataAddr s hk]
  case outside => rw [hbytes, byteAfterStm_outside ha]

/-! The registers LDM fills (R176). -/

/-- Inside memory LDM completes: the registers up to `V[x]` are the bytes at their addresses, the others as before. -/
theorem execLdm_of_lt {x : RegIx} {s : State} (h : s.dataAddr x < 4096) :
    ∃ t, execLdm x s = .next t ∧ (∀ k : RegIx, t.reg k = if k ≤ x then s.byte (s.dataAddr k) else s.reg k) ∧
      WritesOnly ((regsUpTo x).map .reg) s t := by
  have hlt : ∀ k ∈ regsUpTo x, s.dataAddr k < 4096 := fun k hk =>
    State.dataAddr_lt_of_le ((mem_regsUpTo x k).1 hk) h
  obtain ⟨w, hload, hregs⟩ := loadRegs_spec (regsUpTo x) s hlt
  refine ⟨{ s with v := w }, ?completes, fun k => ?registers, .loadRegs hload⟩
  case completes => rw [execLdm, if_neg (Nat.not_le.2 h), hload, commit_ok]
  case registers => simpa using hregs k

/-- Settles O35: every register up to `V[x]` is loaded, and LDM writes no part but these. -/
theorem ldmLoadsTheRegisterBlock : Obligations.LdmLoadsTheRegisterBlock := by
  intro x s
  refine ⟨fun hin => ?inside, execLdm_of_ge⟩
  obtain ⟨t, ht, hregs, hw⟩ := execLdm_of_lt hin
  refine ⟨t, ht, fun k hk => ?block, fun k hk => ?above, hw.unchangedExcept⟩
  case block => rw [hregs, if_pos hk]
  case above => rw [hregs, if_neg (not_le.2 hk)]

end Sys2Proof.Machine
end

section
/-! SUPPORT. The display instructions: what a completed DRW leaves and where it halts, in terms of `SpriteCovers`, and the statements of 43_display.md (R190 to R196). -/

namespace Sys2Proof.Machine

/-- Settles O37: CLS is the clear grid and the pulse, and writes no other part. -/
theorem clsClearsEveryPixel : Obligations.ClsClearsEveryPixel := by
  intro s
  refine ⟨{ s with fb := clearGrid }.emitPresent, rfl, pixel_clearGrid, rfl, ?frame⟩
  case frame => exact ((WritesOnly.set_fb s clearGrid).append (.emitPresent _)).unchangedExcept

/-! The pixels a sprite covers (R193). -/

/-- The statements' `SpriteCovers` is what the drawing of the rows inverts. -/
theorem spriteCovers_range_iff (x y : RegIx) (n : BitVec 4) (s : State) (r c : Nat) :
    spriteCovers s.byte s.i.toNat (s.reg x).toNat (s.reg y).toNat (List.range n.toNat) r c ↔ SpriteCovers x y n s r c := by
  constructor
  · rintro ⟨k, hk, hr, j, hj, hbit, hc⟩
    exact ⟨k, j, List.mem_range.1 hk, List.mem_range.1 hj, hr, hc, hbit⟩
  · rintro ⟨k, j, hk, hj, hr, hc, hbit⟩
    exact ⟨k, List.mem_range.2 hk, hr, j, List.mem_range.2 hj, hbit, hc⟩

/-- The covered pixels depend on the coordinates, on I and on memory alone. -/
theorem spriteCovers_congr {x y : RegIx} {n : BitVec 4} {s t : State} (hx : t.reg x = s.reg x) (hy : t.reg y = s.reg y)
    (hi : t.i = s.i) (hmem : ∀ a, t.byte a = s.byte a) (r c : Nat) :
    SpriteCovers x y n t r c ↔ SpriteCovers x y n s r c := by
  simp only [SpriteCovers, hx, hy, hi, hmem]

/-- A row byte other than 0 has a bit set, and so covers a pixel. -/
theorem exists_spriteCovers_of_byte_ne_zero {x y : RegIx} {n : BitVec 4} {s : State} {k : Nat} (hk : k < n.toNat)
    (hbyte : s.byte (s.i.toNat + k) ≠ 0) : ∃ r c, SpriteCovers x y n s r c := by
  obtain ⟨b, hb, hbit⟩ : ∃ b < 8, (s.byte (s.i.toNat + k)).getLsbD b = true := by
    by_contra! hclear
    exact hbyte (BitVec.eq_of_getLsbD_eq fun b hb => by simpa using hclear b hb)
  have hleft : 7 - (7 - b) = b := by omega
  exact ⟨_, _, k, 7 - b, hk, by omega, rfl, rfl, by rwa [hleft]⟩

/-! The two outcomes of DRW (R194). -/

/-- A pixel that the sprite covers is set, so that drawing it clears it (R194). -/
def SpriteCollides (x y : RegIx) (n : BitVec 4) (s : State) : Prop :=
  ∃ r c, SpriteCovers x y n s r c ∧ s.fb.pixel r c = true

/-- What a completed DRW leaves: the covered pixels inverted and the others kept, the collision in VF, the pulse, and nothing else written. -/
structure Drawn (x y : RegIx) (n : BitVec 4) (s t : State) : Prop where
  covered : ∀ r c, SpriteCovers x y n s r c → t.fb.pixel r c = !s.fb.pixel r c
  uncovered : ∀ r c, ¬ SpriteCovers x y n s r c → t.fb.pixel r c = s.fb.pixel r c
  collision : SpriteCollides x y n s → t.reg vf = 1
  noCollision : ¬ SpriteCollides x y n s → t.reg vf = 0
  present : t.env = { s.env with present := true }
  writesOnly : WritesOnly [.reg vf, .fb, .env] s t

/-- The check stage of DRW in `s`. -/
abbrev SpriteFits (y : RegIx) (n : BitVec 4) (s : State) : Prop :=
  spriteFits s.i.toNat (s.reg y).toNat n.toNat = true

theorem execDrw_of_fits {x y : RegIx} {n : BitVec 4} {s : State} (h : SpriteFits y n s) :
    ∃ t, execDrw x y n s = .next t ∧ Drawn x y n s t := by
  have hrows : ∀ k ∈ List.range n.toNat, (s.reg y).toNat + k < 32 := by
    intro k hk
    have := (spriteFits_iff ..).1 h
    have := List.mem_range.1 hk
    omega
  obtain ⟨g, hdraw, hcov, huncov, hflag⟩ :=
    drawRows_spec s.byte s.i.toNat (s.reg x).toNat (s.reg y).toNat _ hrows List.nodup_range (s.fb, false)
  simp only [spriteCovers_range_iff, Bool.false_eq_true, false_or] at hcov huncov hflag
  refine ⟨({ s with fb := g.1 }.setFlag g.2).emitPresent, ?completes, ?drawn⟩
  case completes =>
    rw [execDrw, if_pos h, hdraw]
    rfl
  case drawn =>
    refine ⟨hcov, huncov, fun hc => ?_, fun hc => ?_, rfl,
      (((WritesOnly.set_fb s g.1).append (.setFlag _ g.2)).append (.emitPresent _)).mono (by simp)⟩
    · simp [hflag.2 hc, bitByte]
    · simp [Bool.eq_false_iff.2 fun e => hc (hflag.1 e), bitByte]

theorem execDrw_of_not_fits {x y : RegIx} {n : BitVec 4} {s : State} (h : ¬ SpriteFits y n s) :
    execDrw x y n s = .next (haltedBy .outOfBounds s) := by
  rw [execDrw, if_neg h, commit_error]

/-- A DRW that leaves the block running has drawn: the other outcome is the halt. -/
theorem drawn_of_running {x y : RegIx} {n : BitVec 4} {s t : State} (h : execDrw x y n s = .next t)
    (hrun : t.status = .running) : SpriteFits y n s ∧ Drawn x y n s t := by
  by_cases hfits : SpriteFits y n s
  · obtain ⟨t', ht, hd⟩ := execDrw_of_fits (x := x) hfits
    cases ht.symm.trans h
    exact ⟨hfits, hd⟩
  · cases (execDrw_of_not_fits hfits).symm.trans h
    cases hrun

/-- Settles O38: the sprite fits, and DRW writes no part but VF, the grid and the pulse. -/
theorem drwXorsTheSpriteAndReportsCollision : Obligations.DrwXorsTheSpriteAndReportsCollision := by
  intro x y n s hin
  have hfits : SpriteFits y n s := (spriteFits_iff ..).2 (hin.imp_left fun hn => congrArg BitVec.toNat hn)
  obtain ⟨t, ht, hd⟩ := execDrw_of_fits (x := x) hfits
  exact ⟨t, ht, fun r c _ _ => hd.covered r c, hd.uncovered, hd.collision, hd.noCollision, hd.present,
    hd.writesOnly.unchangedExcept⟩

/-- Settles O39: the check stage fails before any pixel is drawn. -/
theorem drwFaultsOutsideMemoryOrGrid : Obligations.DrwFaultsOutsideMemoryOrGrid := by
  intro x y n s hn hout
  refine execDrw_of_not_fits fun hfits => ?_
  rcases (spriteFits_iff ..).1 hfits with h0 | hin
  · exact hn (BitVec.eq_of_toNat_eq h0)
  · omega

/-! Drawing twice (R195). -/

/-- A second draw over the same pixels inverts them back. -/
theorem Drawn.fb_of_same_covers {x y : RegIx} {n : BitVec 4} {s t u : State} (h1 : Drawn x y n s t)
    (h2 : Drawn x y n t u) (hsame : ∀ r c, SpriteCovers x y n t r c ↔ SpriteCovers x y n s r c) : u.fb = s.fb := by
  refine FrameBuffer.ext_pixel fun r c => ?_
  by_cases hc : SpriteCovers x y n s r c
  · rw [h2.covered r c ((hsame r c).2 hc), h1.covered r c hc, Bool.not_not]
  · rw [h2.uncovered r c (mt (hsame r c).1 hc), h1.uncovered r c hc]

/-- Settles O40: the first draw leaves I, memory and the coordinates, so the second covers the same pixels, and each of them that was clear is set when it is drawn again. -/
theorem drawingTwiceRestoresTheGrid : Obligations.DrawingTwiceRestoresTheGrid := by
  intro x y n s t ht _ hrun hx hy
  obtain ⟨hfits, hd1⟩ := drawn_of_running ht hrun
  have hi : t.i = s.i := hd1.writesOnly.unchangedExcept .i (by simp)
  have hmem : ∀ a, t.byte a = s.byte a := hd1.writesOnly.unchangedExcept .mem (by simp)
  have hsame := spriteCovers_congr (n := n) hx hy hi hmem
  have hfits' : SpriteFits y n t := by rwa [SpriteFits, hi, hy]
  obtain ⟨u, hu, hd2⟩ := execDrw_of_fits (x := x) hfits'
  refine ⟨u, hu, hd1.fb_of_same_covers hd2 hsame, fun hclear => ⟨?first, ?second⟩⟩
  case first => exact hd1.noCollision (by simp [SpriteCollides, hclear])
  case second =>
    rintro ⟨k, hk, hbyte⟩
    obtain ⟨r, c, hc⟩ := exists_spriteCovers_of_byte_ne_zero (x := x) (y := y) hk hbyte
    exact hd2.collision ⟨r, c, (hsame r c).2 hc, by rw [hd1.covered r c hc, hclear, Bool.not_false]⟩

end Sys2Proof.Machine
end

section
/-! SUPPORT. The timers: the statuses of a set and of a tick, what one `timer_tick` does outside `Halted`, a run of ticks, and the statements of 44_timers.md (R211 to R218). -/

namespace Sys2Proof.Machine

/-! The transition table of `TimerSet` (R211). -/

theorem setStatus_stopped {prev new : Byte} (hp : prev = 0) (hn : new = 0) : setStatus prev new = .stopped := by
  rw [setStatus, if_pos hp, if_pos hn]

theorem setStatus_ended {prev new : Byte} (hp : prev ≠ 0) (hn : new = 0) : setStatus prev new = .ended := by
  rw [setStatus, if_neg hp, if_pos hn]

theorem setStatus_started {prev new : Byte} (hp : prev = 0) (hn : new ≠ 0) : setStatus prev new = .started := by
  rw [setStatus, if_pos hp, if_neg hn]

theorem setStatus_running {prev new : Byte} (hp : prev ≠ 0) (hn : new ≠ 0) : setStatus prev new = .running := by
  rw [setStatus, if_neg hp, if_neg hn]

/-- The tick of a nonzero timer presents End as it reaches 0 and Running before (R212). -/
theorem tickStatus_of_ne_zero {t : Byte} (h : t ≠ 0) :
    tickStatus t = if t.toNat = 1 then .ended else .running := by
  have hpos : t.toNat ≠ 0 := mt (byte_eq_zero_iff t).2 h
  split_ifs with h1
  · exact tickStatus_one h1
  · exact tickStatus_of_two_le (by omega)

/-- The tone after an operation on the sound timer is the one its status asks for (R214). -/
theorem status_and_tone {status e : TimerStatus} (tone : Bool) (h : status = e) :
    status = e ∧ toneUpdate status tone = toneUpdate e tone :=
  ⟨h, congrArg (toneUpdate · tone) h⟩

/-! The instructions. -/

/-- Settles O41: GDT writes `V[x]` alone. -/
theorem gdtReadsTheDelayTimer : Obligations.GdtReadsTheDelayTimer :=
  fun _ s => exec_writes_reg (· = s.dt) rfl rfl

/-- Settles O42: SDT is `TimerSet` on DT. -/
theorem sdtSetsTheDelayTimer : Obligations.SdtSetsTheDelayTimer :=
  fun x s => ⟨setDelay (s.reg x) s, rfl, rfl, setStatus_stopped, setStatus_ended, setStatus_started,
    setStatus_running, (WritesOnly.setDelay _ s).unchangedExcept⟩

/-- Settles O43: SST is `TimerSet` on ST, whose status gates the tone. -/
theorem sstSetsTheSoundTimerAndGatesTheTone : Obligations.SstSetsTheSoundTimerAndGatesTheTone :=
  fun x s => ⟨setSound (s.reg x) s, rfl, rfl,
    fun hp hn => status_and_tone s.tone (setStatus_stopped hp hn),
    fun hp hn => status_and_tone s.tone (setStatus_ended hp hn),
    fun hp hn => status_and_tone s.tone (setStatus_started hp hn),
    fun hp hn => status_and_tone s.tone (setStatus_running hp hn),
    ((WritesOnly.setSound _ s).mono (by simp)).unchangedExcept⟩

/-! One `timer_tick` (R213). -/

theorem WritesOnly.tickTimers (s : State) : WritesOnly [.dt, .dtStatus, .st, .stStatus, .tone] s (tickTimers s) := by
  simp [WritesOnly, UnchangedExcept, Part.forall_iff, Part.same]

theorem timerTick_of_not_halted {s : State} (h : s.status ≠ .halted) : timerTick s = tickTimers s := by
  unfold timerTick
  split
  next hs => exact absurd hs h
  next => rfl
  next => rfl

/-- Outside `Halted` a step on a `timer_tick` ticks the timers of the state with its boundary moved on. -/
theorem step_of_tick {s s1 : State} (h : nextEvent s = (.timerTick, s1)) (hr : s1.env.hasReset = true)
    (hrun : s.status ≠ .halted) : step s = .next (tickTimers { s with env := s1.env }) := by
  have hs1 : s1 = { s with env := s1.env } := by simpa [h] using (nextEvent_frame s).1
  have hstatus : s1.status = s.status := by rw [hs1]
  rw [step_of_timerTick h hr, ← hs1, timerTick_of_not_halted (hstatus ▸ hrun)]

/-- Settles O13: the step ticks both timers, a timer at 0, at 1 or above. -/
theorem timerTickTicksBothTimers : Obligations.TimerTickTicksBothTimers := by
  intro s s1 h hr hrun
  refine ⟨_, step_of_tick h hr hrun, fun hdt => ?delayStopped,
    fun hdt => ⟨toNat_tickValue s.dt, tickStatus_of_ne_zero hdt⟩, fun hst => ?soundStopped,
    fun _ => toNat_tickValue s.st, fun hst => status_and_tone s.tone (tickStatus_one hst),
    fun hst => status_and_tone s.tone (tickStatus_of_two_le hst), ?frame⟩
  case delayStopped =>
    rw [tickTimers_dt, tickTimers_dtStatus, hdt]
    exact ⟨rfl, rfl⟩
  case soundStopped =>
    rw [tickTimers_st, tickTimers_stStatus, tickTimers_tone, hst]
    exact ⟨rfl, rfl, rfl⟩
  case frame => exact (((WritesOnly.set_env s _).append (.tickTimers _)).mono (by simp)).unchangedExcept

/-! A run of ticks (R215). -/

theorem run_succ_of_step {s t : State} (h : step s = .next t) (k : Nat) : run (k + 1) s = run k t := by
  simp only [run, h]

/-- A run of `k` queued ticks takes `k` off each timer, not below 0, and the tone stays the gate of the sound timer (R27). -/
theorem run_ticks (k : Nat) {s : State} {rest : List Event} (hrun : s.status ≠ .halted) (hr : s.env.hasReset = true)
    (htone : s.tone = decide (s.st ≠ 0)) (hp : s.env.pending = List.replicate k .timerTick ++ rest) :
    ∃ t, run k s = .next t ∧ t.st.toNat = s.st.toNat - k ∧ t.dt.toNat = s.dt.toNat - k ∧
      t.tone = decide (t.st ≠ 0) := by
  induction k generalizing s with
  | zero => exact ⟨s, rfl, rfl, rfl, htone⟩
  | succ k ih =>
    have hstep : step s = .next (tickTimers (s.startEvent (List.replicate k .timerTick ++ rest))) :=
      step_of_tick (nextEvent_of_pending hp) hr hrun
    have hgate : toneUpdate (tickStatus s.st) s.tone = decide (tickValue s.st ≠ 0) := by
      rw [htone, toneUpdate_tickStatus]
    obtain ⟨t, ht, hst, hdt, hgate⟩ := ih (s := tickTimers (s.startEvent _)) hrun hr hgate rfl
    rw [tickTimers_st, State.startEvent_st, toNat_tickValue] at hst
    rw [tickTimers_dt, State.startEvent_dt, toNat_tickValue] at hdt
    exact ⟨t, (run_succ_of_step hstep k).trans ht, by omega, by omega, hgate⟩

/-- Settles O14: the first `k` of the queued ticks leave the sound timer at its value less `k`, and the tone sounds as long as that is not 0. -/
theorem toneLastsExactlyTheTicksOfTheSoundTimer : Obligations.ToneLastsExactlyTheTicksOfTheSoundTimer := by
  intro s rest k hrun hr htone hp hk
  rw [← Nat.add_sub_of_le hk, List.replicate_add, List.append_assoc] at hp
  obtain ⟨t, ht, hst, hdt, hgate⟩ := run_ticks k hrun hr htone hp
  have hsounds : t.st ≠ 0 ↔ k < s.st.toNat := by
    rw [Ne, byte_eq_zero_iff, hst]
    omega
  exact ⟨t, ht, hst, hgate.trans (decide_eq_decide.2 hsounds), hdt⟩

end Sys2Proof.Machine
end

section
/-! SUPPORT. The keypad: the line a key skip reads, the two outcomes of a key poll, a step in `WaitKey`, and the statements of 45_keypad.md (R231 to R234). -/

namespace Sys2Proof.Machine

/-! The key skips (R231, R232). -/

theorem keyLine_of_lt {k : Nat} (s : State) (h : k < 16) : keyLine k s = .ok (s.env.inputs.keys.getLsbD k) :=
  if_neg (Nat.not_le.2 h)

theorem keyLine_of_ge {k : Nat} (s : State) (h : 16 ≤ k) : keyLine k s = .error .outOfBounds :=
  if_pos h

/-- Settles O24: below 16 both are a conditional skip on the line of their key, from 16 on there is no line. -/
theorem keySkipsTestTheKeyLine : Obligations.KeySkipsTestTheKeyLine := by
  intro x s
  refine ⟨fun hlt => ⟨skipsWhen_of_skipIf ?skp Iff.rfl, skipsWhen_of_skipIf ?sknp (Bool.not_eq_true' _).to_iff⟩,
    fun hge => ⟨?skpFault, ?sknpFault⟩⟩
  case skp => rw [exec, execSkp, keyLine_of_lt s hlt, Except.bind]
  case sknp => rw [exec, execSknp, keyLine_of_lt s hlt, Except.bind]
  case skpFault => rw [exec, execSkp, keyLine_of_ge s hge, Except.bind, commit_error]
  case sknpFault => rw [exec, execSknp, keyLine_of_ge s hge, Except.bind, commit_error]

/-! The key poll (R234). -/

theorem keyPoll_of_keys_eq_zero (x : RegIx) {s : State} (h : s.env.inputs.keys = 0) :
    keyPoll x s = { s with status := .waitKey x } := by
  rcases keyPoll_cases x s with ⟨-, e⟩ | ⟨_, hne, -, -, -⟩
  · exact e
  · exact absurd h hne

/-- Where the core waits for the same register already, a poll that finds no key changes nothing. -/
theorem keyPoll_eq_self {x : RegIx} {s : State} {env : Env} (hw : s.status = .waitKey x) (h : env.inputs.keys = 0) :
    keyPoll x { s with env := env } = { s with env := env } := by
  rw [keyPoll_of_keys_eq_zero x h, ← hw]

theorem toNat_ofNat_keyIndex {k : Nat} (h : k < 16) : (BitVec.ofNat 8 k).toNat = k :=
  Nat.mod_eq_of_lt (h.trans (by decide))

/-- With a key pressed the poll ends the wait and leaves the index of a pressed key in V[x]. -/
theorem keyPoll_of_keys_ne_zero (x : RegIx) {s : State} (h : s.env.inputs.keys ≠ 0) :
    (keyPoll x s).status = .running ∧ ((keyPoll x s).reg x).toNat < 16 ∧
      s.env.inputs.keys.getLsbD ((keyPoll x s).reg x).toNat = true := by
  rcases keyPoll_cases x s with ⟨hzero, -⟩ | ⟨k, -, hk, hp, e⟩
  · exact absurd hzero h
  · have hreg : ((keyPoll x s).reg x).toNat = k := by
      rw [e]
      exact (congrArg BitVec.toNat (State.reg_setReg_same s x _)).trans (toNat_ofNat_keyIndex hk)
    exact ⟨by rw [e], hreg ▸ hk, hreg ▸ hp⟩

theorem toNat_keyPoll_reg_of_anyKey (x : RegIx) {s : State} {k : Nat} (hk : k < 16)
    (h : s.env.inputs.anyKey = some k) : ((keyPoll x s).reg x).toNat = k := by
  rw [keyPoll_reg_of_anyKey x h, toNat_ofNat_keyIndex hk]

/-- Settles O44: KEY is the poll. -/
theorem keyBlocksOrReportsAPressedKey : Obligations.KeyBlocksOrReportsAPressedKey := by
  intro x s
  refine ⟨fun hnone => congrArg _ (keyPoll_of_keys_eq_zero x hnone), fun hsome => ?reports, fun k hk hp => ?reached⟩
  case reports =>
    obtain ⟨hrun, hlt, hpressed⟩ := keyPoll_of_keys_ne_zero x hsome
    exact ⟨keyPoll x s, rfl, hrun, hlt, hpressed, (WritesOnly.keyPoll x s).unchangedExcept⟩
  case reached =>
    obtain ⟨pick, hpick⟩ := s.env.inputs.anyKey_reaches hk hp
    exact ⟨pick, _, rfl, toNat_keyPoll_reg_of_anyKey x hk hpick⟩

/-! A step in `WaitKey(x)` (R120, R234). -/

theorem cpuStep_of_waitKey {s : State} {x : RegIx} (h : s.status = .waitKey x) :
    cpuStep s = .next (keyPoll x s) := by
  simp [cpuStep, h]

/-- In `WaitKey(x)` a step on a `cpu_step` polls the keys in the state with its boundary moved on and the inputs presented. -/
theorem step_of_waitKey {s s1 : State} {inp : Inputs} {x : RegIx} (h : nextEvent s = (.cpuStep inp, s1))
    (hr : s1.env.hasReset = true) (hw : s.status = .waitKey x) :
    step s = .next (keyPoll x { s with env := { s1.env with inputs := inp } }) := by
  have hs1 : s1 = { s with env := s1.env } := by simpa [h] using (nextEvent_frame s).1
  have hin : s1.withInputs inp = { s with env := { s1.env with inputs := inp } } :=
    congrArg (State.withInputs · inp) hs1
  rw [step_of_cpuStep h hr, hin]
  exact cpuStep_of_waitKey hw

/-- Settles O15: the step is the poll, and the answer that reports a key does so in every state. -/
theorem keyWaitPollsTheKeys : Obligations.KeyWaitPollsTheKeys := by
  intro s s1 inp x h hr hw
  refine ⟨_, step_of_waitKey h hr hw, fun hnone => ?blocked, fun hsome => ?reports, fun k hk hp => ?reached⟩
  case blocked => rw [keyPoll_eq_self hw hnone]
  case reports =>
    obtain ⟨hrun, hlt, hpressed⟩ := keyPoll_of_keys_ne_zero x (s := { s with env := { s1.env with inputs := inp } }) hsome
    exact ⟨hrun, hlt, hpressed, (((WritesOnly.set_env s _).append (.keyPoll x _)).mono (by simp)).unchangedExcept⟩
  case reached =>
    obtain ⟨pick, hpick⟩ := inp.anyKey_reaches hk hp
    exact ⟨pick, fun _ _ h' hr' hw' => ⟨_, step_of_waitKey h' hr' hw', toNat_keyPoll_reg_of_anyKey x hk hpick⟩⟩

/-! A wait while no key is pressed (R234, D17, D18). -/

theorem UnchangedExcept.trans {ps : List Part} {s t u : State} (h : UnchangedExcept ps s t)
    (k : UnchangedExcept ps t u) : UnchangedExcept ps s u :=
  fun p hp => Part.same_trans (h p hp) (k p hp)

/-- A queued tick or keyless `cpu_step` leaves `WaitKey(x)` in place and moves at most the timers and the boundary. -/
theorem step_keeps_waitKey {s : State} {x : RegIx} {e : Event} {rest : List Event} (hw : s.status = .waitKey x)
    (hr : s.env.hasReset = true) (hp : s.env.pending = e :: rest) (he : e.pressesNoKey = true) :
    ∃ t, step s = .next t ∧ t.status = .waitKey x ∧ t.env.hasReset = true ∧ t.env.pending = rest ∧
      UnchangedExcept [.dt, .dtStatus, .st, .stStatus, .tone, .env] s t := by
  have hnext := nextEvent_of_pending hp
  cases e with
  | reset => cases he
  | cpuStep inp =>
    have hkeys : inp.keys = 0 := eq_of_beq he
    have hstep := step_of_waitKey hnext hr hw
    rw [keyPoll_eq_self hw hkeys] at hstep
    exact ⟨_, hstep, hw, hr, rfl, ((WritesOnly.set_env s _).mono (by simp)).unchangedExcept⟩
  | timerTick =>
    exact ⟨_, step_of_tick hnext hr (by simp [hw]), hw, hr, rfl,
      (((WritesOnly.set_env s _).append (.tickTimers _)).mono (by simp)).unchangedExcept⟩

/-- Settles O16, by induction on the queued events: each of them keeps the wait. -/
theorem keyWaitLastsWhileNoKeyIsPressed : Obligations.KeyWaitLastsWhileNoKeyIsPressed := by
  intro es rest s x hw hr hp hes
  induction es generalizing s with
  | nil => exact ⟨s, rfl, hw, hp, ((WritesOnly.refl s).mono (List.nil_subset _)).unchangedExcept⟩
  | cons e es ih =>
    obtain ⟨he, hes⟩ := List.forall_mem_cons.1 hes
    obtain ⟨u, hstep, hwu, hru, hpu, hsu⟩ := step_keeps_waitKey hw hr hp he
    obtain ⟨t, ht, hwt, hpt, hut⟩ := ih u hwu hru hpu hes
    exact ⟨t, (run_succ_of_step hstep es.length).trans ht, hwt, hpt, hsu.trans hut⟩

end Sys2Proof.Machine
end

section
/-! SUPPORT. The faults of the execute stage: an instruction answers as its list of causes says, the faulting instructions by their two outcomes, the others by completing (60_exceptions.md R240, R241, R243). Then the statement of the list. -/

namespace Sys2Proof.Machine

/-- `exec` answers as the cause `f` asks: on a fault with the halt of R243, on none with a state that is not halted and has the record as it was. -/
def AnswersFault (f : Option Fault) (i : Instr) (s : State) : Prop :=
  (∀ k, f = some k → exec i s = .next (haltedBy k s)) ∧
  (f = none → ∃ t, exec i s = .next t ∧ t.status ≠ .halted ∧ t.fault = s.fault)

namespace AnswersFault

variable {f : Option Fault} {k : Fault} {i : Instr} {s t : State}

theorem of_halted (h : exec i s = .next (haltedBy k s)) : AnswersFault (some k) i s :=
  ⟨fun _ hk => Option.some.inj hk ▸ h, nofun⟩

theorem of_completed (h : exec i s = .next t) (hrun : t.status ≠ .halted) (hfault : t.fault = s.fault) :
    AnswersFault none i s :=
  ⟨nofun, fun _ => ⟨t, h, hrun, hfault⟩⟩

/-- An instruction that writes neither the status nor the record completes in a block that is not halted. -/
theorem of_writesOnly {ps : List Part} (h : exec i s = .next t) (hw : WritesOnly ps s t) (hrun : s.status ≠ .halted)
    (hstatus : Part.status ∉ ps) (hfault : Part.fault ∉ ps) : AnswersFault none i s := by
  have hsame : t.status = s.status := hw.unchangedExcept .status hstatus
  exact of_completed h (hsame ▸ hrun) (hw.unchangedExcept .fault hfault)

/-- A cause that holds faults; past one that does not, the rest of the list counts. -/
theorem of_ite {c : Prop} [Decidable c] (hc : c → AnswersFault (some k) i s) (hn : ¬ c → AnswersFault f i s) :
    AnswersFault (if c then some k else f) i s := by
  split
  next h => exact hc h
  next h => exact hn h

/-- An instruction with a range check answers by whether the check fails. -/
theorem of_bounds {c : Bool} {p : Prop} (hp : c = true ↔ p) (hout : p → exec i s = .next (haltedBy .outOfBounds s))
    (hin : ¬ p → AnswersFault none i s) : AnswersFault (boundsFault c) i s :=
  of_ite (fun h => of_halted (hout (hp.1 h))) (fun h => hin (mt hp.2 h))

/-- A block operation answers by whether the address of its last byte is in memory (R174 to R176). -/
theorem of_lastByte {ps : List Part} {P : State → Prop} {n : Nat}
    (hin : s.dataAddr n < 4096 → ∃ t, exec i s = .next t ∧ P t ∧ WritesOnly ps s t)
    (hout : 4096 ≤ s.dataAddr n → exec i s = .next (haltedBy .outOfBounds s)) (hrun : s.status ≠ .halted)
    (hstatus : Part.status ∉ ps) (hfault : Part.fault ∉ ps) :
    AnswersFault (boundsFault (decide (4096 ≤ s.dataAddr n))) i s := by
  refine of_bounds decide_eq_true_iff hout fun h => ?_
  obtain ⟨t, ht, -, hw⟩ := hin (Nat.not_le.1 h)
  exact of_writesOnly ht hw hrun hstatus hfault

/-- A skip faults exactly when it is taken and leaves memory (R123). -/
theorem of_skipsWhen {c : Prop} {b : Bool} (h : SkipsWhen c i s) (hb : b = true ↔ c) (hrun : s.status ≠ .halted) :
    AnswersFault (skipFault b s) i s := by
  obtain ⟨hin, hout, hnot⟩ := h
  refine of_ite (fun hleaves => ?leaves) (fun hstays => ?stays)
  case leaves =>
    obtain ⟨htaken, hpc⟩ := Bool.and_eq_true_iff.1 hleaves
    exact of_halted (hout (hb.1 htaken) (of_decide_eq_true hpc))
  case stays =>
    by_cases hc : c
    · have hpc : ¬ 4096 ≤ s.pc.toNat + 2 := fun hge => hstays (by rw [hb.2 hc, decide_eq_true hge, Bool.and_true])
      exact of_completed (hin hc (Nat.not_le.1 hpc)) hrun rfl
    · exact of_completed (hnot hc) hrun rfl

end AnswersFault

/-! The instructions that can fault. -/

section
variable {s : State} (hrun : s.status ≠ .halted)
include hrun

/-- Every return address is inside memory, so RET faults on an empty stack alone (R24, R126). -/
theorem ret_answersFault (hs : s.Inv) : AnswersFault (executeFault .ret s) .ret s := by
  refine .of_ite (fun hempty => ?empty) (fun hne => ?popped)
  case empty => exact .of_halted ((retPopsThePc s).2 (List.length_eq_zero_iff.1 hempty))
  case popped =>
    obtain ⟨hnil, -⟩ | ⟨below, a, hst, -⟩ := pop_cases s
    · exact absurd (List.length_eq_zero_iff.2 hnil) hne
    · have ha := hs.stack_entries a (by simp [hst])
      exact .of_completed ((retPopsThePc s).1 below a hst (by omega)) hrun rfl

/-- The stack never holds more than 64 entries, so CALL faults at 64 (R24, R129). -/
theorem call_answersFault (hs : s.Inv) (nnn : Addr) : AnswersFault (executeFault (.call nnn) s) (.call nnn) s := by
  have hdepth := hs.stack_depth
  refine .of_ite (fun hfull => ?full) (fun hroom => ?pushed)
  case full => exact .of_halted ((callPushesTheReturnAddress nnn s).2 hfull.ge)
  case pushed => exact .of_completed ((callPushesTheReturnAddress nnn s).1 (by omega)) hrun rfl

theorem jmpv_answersFault (nnn : Addr) : AnswersFault (executeFault (.jmpv nnn) s) (.jmpv nnn) s := by
  obtain ⟨hin, hout⟩ := jmpvAddsV0WithoutWrapping nnn s
  exact .of_bounds decide_eq_true_iff hout fun h => .of_completed (hin (Nat.not_le.1 h)) hrun rfl

/-- A key skip has two causes: there is no line for the key, or the skip leaves memory (R231, R232). -/
theorem keySkips_answerFault (x : RegIx) :
    AnswersFault (executeFault (.skp x) s) (.skp x) s ∧ AnswersFault (executeFault (.sknp x) s) (.sknp x) s := by
  obtain ⟨hlt, hge⟩ := keySkipsTestTheKeyLine x s
  refine ⟨.of_ite (fun h => .of_halted (hge h).1) (fun h => ?skp),
    .of_ite (fun h => .of_halted (hge h).2) (fun h => ?sknp)⟩
  case skp => exact .of_skipsWhen (hlt (Nat.not_le.1 h)).1 Iff.rfl hrun
  case sknp => exact .of_skipsWhen (hlt (Nat.not_le.1 h)).2 (Bool.not_eq_true' _).to_iff hrun

/-- The listed cause of DRW is the failure of its check stage (R194). -/
theorem drw_answersFault (x y : RegIx) (n : BitVec 4) : AnswersFault (executeFault (.drw x y n) s) (.drw x y n) s := by
  have hcause : (decide (1 ≤ n.toNat) && (decide (4096 ≤ s.i.toNat + n.toNat - 1) ||
      decide (32 ≤ (s.reg y).toNat + n.toNat - 1))) = true ↔ ¬ SpriteFits y n s := by
    rw [SpriteFits, spriteFits_iff]
    simp only [Bool.and_eq_true, Bool.or_eq_true, decide_eq_true_eq]
    omega
  refine .of_bounds hcause execDrw_of_not_fits fun h => ?_
  obtain ⟨t, ht, hd⟩ := execDrw_of_fits (x := x) (not_not.1 h)
  exact .of_writesOnly ht hd.writesOnly hrun (by simp) (by simp)

end

/-- A key poll never halts: it waits, or it lets the core run (R234). -/
theorem keyPoll_status_ne_halted (x : RegIx) (s : State) : (keyPoll x s).status ≠ .halted := by
  rcases keyPoll_cases x s with ⟨-, e⟩ | ⟨_, -, -, -, e⟩ <;> simp [e]

theorem exec_answersFault (i : Instr) {s : State} (hs : s.Inv) (hrun : s.status ≠ .halted) :
    AnswersFault (executeFault i s) i s := by
  cases i with
  | ret => exact ret_answersFault hrun hs
  | sys => exact .of_halted rfl
  | call nnn => exact call_answersFault hrun hs nnn
  | jmpv nnn => exact jmpv_answersFault hrun nnn
  | skei x nn => exact .of_skipsWhen (skipsWhen_of_skipIf rfl beq_iff_eq) decide_eq_true_iff hrun
  | skni x nn => exact .of_skipsWhen (skipsWhen_of_skipIf rfl bne_iff_ne) decide_eq_true_iff hrun
  | sker x y => exact .of_skipsWhen (skipsWhen_of_skipIf rfl beq_iff_eq) decide_eq_true_iff hrun
  | sknr x y => exact .of_skipsWhen (skipsWhen_of_skipIf rfl bne_iff_ne) decide_eq_true_iff hrun
  | skp x => exact (keySkips_answerFault hrun x).1
  | sknp x => exact (keySkips_answerFault hrun x).2
  | bcd x => exact .of_lastByte execBcd_of_lt execBcd_of_ge hrun (by simp) (by simp)
  | stm x => exact .of_lastByte execStm_of_lt execStm_of_ge hrun (by simp) (by simp)
  | ldm x => exact .of_lastByte execLdm_of_lt execLdm_of_ge hrun (by simp) (by simp)
  | drw x y n => exact drw_answersFault hrun x y n
  | jmp nnn => exact .of_completed (jmpSetsThePc nnn s) hrun rfl
  | key x =>
    exact .of_completed rfl (keyPoll_status_ne_halted x s) ((WritesOnly.keyPoll x s).unchangedExcept .fault (by simp))
  | adi x => exact .of_writesOnly rfl (.addToI _ x s) hrun (by split <;> simp) (by split <;> simp)
  | cls | ldi | fnt => exact .of_completed rfl hrun rfl
  | mov | addi | cpy | or | and | xor | rnd => exact .of_completed rfl hrun rfl
  | add | sub | rsb | shr | shl => exact .of_completed rfl hrun rfl
  | gdt | sdt | sst => exact .of_completed rfl hrun rfl

/-- Settles O45, instruction by instruction: each faults on its own causes and otherwise completes. -/
theorem executeFaultsAreExactlyThoseListed : Obligations.ExecuteFaultsAreExactlyThoseListed :=
  fun i _ hs hrun => exec_answersFault i hs (by simp [hrun])

end Sys2Proof.Machine
end

section
/-! SUPPORT. Halts: where an instruction, a cycle and a step come to one and what it leaves, and the steps of a halted block (60_exceptions.md R242 to R244, R246). Then the other statements of 60_exceptions.md. -/

namespace Sys2Proof.Machine

/-! Coming to a halt (R244). -/

/-- Of the instructions KEY alone writes the status (R37). -/
theorem eq_key_of_status_mem_writtenParts {i : Instr} (h : Part.status ∈ writtenParts i) : ∃ x, i = .key x := by
  cases i with
  | key x => exact ⟨x, rfl⟩
  | adi => simp only [writtenParts] at h; split at h <;> simp at h
  | _ => simp [writtenParts] at h

/-- The one way an instruction halts the block is the raise of a fault (R243). -/
theorem exec_eq_raise_of_halted {i : Instr} {s t : State} (h : exec i s = .next t) (hrun : s.status ≠ .halted)
    (hhalt : t.status = .halted) : ∃ k, t = raise k s := by
  rcases exec_cases h with hraise | hw
  · exact hraise
  · by_cases hkey : Part.status ∈ writtenParts i
    · obtain ⟨x, rfl⟩ := eq_key_of_status_mem_writtenParts hkey
      cases h
      exact absurd hhalt (keyPoll_status_ne_halted x s)
    · have hsame : t.status = s.status := hw.unchangedExcept .status hkey
      exact absurd (hsame.symm.trans hhalt) hrun

/-- The halt `t` of an event begun in `s` is precise: `pc` has at most been advanced by the fetch, and the record names the address (R244). -/
structure PreciseHalt (s t : State) : Prop where
  pc : t.pc = s.pc ∨ t.pc.toNat = s.pc.toNat + 2
  record : ∃ r, t.fault = some r ∧ r.pc0 = s.pc
  unchangedExcept : UnchangedExcept [.pc, .status, .fault, .env] s t

/-- The boundary is no part of what a halt leaves. -/
theorem PreciseHalt.of_set_env {s t : State} {env : Env} (h : PreciseHalt { s with env := env } t) : PreciseHalt s t :=
  ⟨h.pc, h.record, ((WritesOnly.set_env s env).mono (by simp)).unchangedExcept.trans h.unchangedExcept⟩

theorem preciseHalt_fetch (k : Fault) (s : State) : PreciseHalt s (halt (s.fetchRecord k) s) :=
  ⟨.inl rfl, ⟨_, rfl, rfl⟩, ((WritesOnly.halt _ s).mono (by simp)).unchangedExcept⟩

/-- A fault after the fetch finds `pc` advanced and names the address before that (R242, R243). -/
theorem preciseHalt_raise (k : Fault) {s : State} (hpc : s.pc.toNat < 4094) :
    PreciseHalt s (raise k { s with pc := BitVec.ofNat 12 (s.pc.toNat + 2) }) :=
  ⟨.inr (toNat_ofNat_addr (Nat.add_lt_add_right hpc 2)),
    ⟨_, rfl, congrArg FaultRecord.pc0 (executeRecord_of_fetched k s)⟩,
    (((WritesOnly.set_pc s _).append (.halt _ _)).mono (by simp)).unchangedExcept⟩

/-- A cycle halts in its fetch, its decode or its execute stage, in each of them precisely. -/
theorem cycle_preciseHalt {s t : State} (h : cycle s = .next t) (hrun : s.status ≠ .halted)
    (hhalt : t.status = .halted) : PreciseHalt s t := by
  rcases Nat.lt_or_ge s.pc.toNat 4094 with hlt | hge
  · cases hd : decode (s.byte s.pc.toNat) (s.byte (s.pc.toNat + 1)) with
    | error e =>
      cases (cycle_of_decode_error hlt hd).symm.trans h
      exact preciseHalt_raise _ hlt
    | ok i =>
      obtain ⟨k, rfl⟩ := exec_eq_raise_of_halted ((cycle_of_decode_ok hlt hd).symm.trans h) hrun hhalt
      exact preciseHalt_raise k hlt
  · cases (cycle_of_ge hge).symm.trans h
    exact preciseHalt_fetch _ s

/-- An event other than `reset` whose step answers comes after a first reset (R36). -/
theorem hasReset_of_step_eq_next {s s1 t : State} {e : Event} (h : nextEvent s = (e, s1)) (he : e.keepsRunning = true)
    (hstep : step s = .next t) : s1.env.hasReset = true := by
  by_contra hr
  cases (step_refused_of_not_hasReset h he (Bool.eq_false_iff.2 hr)).symm.trans hstep

/-- Settles O48: of the events other than `reset` only a cycle halts the block, for a tick keeps the status and a key poll never halts. -/
theorem faultsArePrecise : Obligations.FaultsArePrecise := by
  intro s s1 t e h he hstep hrun hhalt
  have hr := hasReset_of_step_eq_next h he hstep
  suffices hp : PreciseHalt s t from ⟨hp.pc, hp.record, hp.unchangedExcept⟩
  cases e with
  | reset program => cases he
  | timerTick =>
    cases (step_of_tick h hr hrun).symm.trans hstep
    exact absurd hhalt hrun
  | cpuStep inp =>
    cases hst : s.status with
    | halted => exact absurd hst hrun
    | waitKey x =>
      cases (step_of_waitKey h hr hst).symm.trans hstep
      exact absurd hhalt (keyPoll_status_ne_halted x _)
    | running =>
      obtain ⟨env, -, hcycle⟩ := step_of_running h hr hst
      exact (cycle_preciseHalt (hcycle.symm.trans hstep) hrun hhalt).of_set_env

/-! The steps of a halted block (R246). -/

theorem cpuStep_of_halted {s : State} (h : s.status = .halted) : cpuStep s = .next s := by
  simp [cpuStep, h]

theorem timerTick_of_halted {s : State} (h : s.status = .halted) : timerTick s = s := by
  simp [timerTick, h]

/-- In `Halted` a step on an event other than `reset` moves the boundary on and nothing else. -/
theorem step_of_halted {s s1 : State} {e : Event} (h : nextEvent s = (e, s1)) (he : e.keepsRunning = true)
    (hr : s1.env.hasReset = true) (hhalt : s.status = .halted) :
    ∃ env, step s = .next { s with env := env } ∧ env.pending = s1.env.pending ∧ env.hasReset = true := by
  have hs1 : s1 = { s with env := s1.env } := by simpa [h] using (nextEvent_frame s).1
  have hhalt1 : s1.status = .halted := (congrArg State.status hs1).trans hhalt
  cases e with
  | reset program => cases he
  | cpuStep inp =>
    refine ⟨(s1.withInputs inp).env, ?_, rfl, hr⟩
    rw [step_of_cpuStep h hr, cpuStep_of_halted (s := s1.withInputs inp) hhalt1]
    exact congrArg (fun u => Host.Outcome.next (u.withInputs inp)) hs1
  | timerTick =>
    refine ⟨s1.env, ?_, rfl, hr⟩
    rw [step_of_timerTick h hr, timerTick_of_halted hhalt1]
    exact congrArg Host.Outcome.next hs1

/-- Settles O10: a step of a halted block writes the boundary and nothing else. -/
theorem haltedStepsChangeNoState : Obligations.HaltedStepsChangeNoState := by
  intro s s1 e h he hr hhalt
  obtain ⟨_, hstep, -, -⟩ := step_of_halted h he hr hhalt
  exact ⟨_, hstep, rfl⟩

/-- Settles O11, by induction on the queued events: each step leaves a halted block with the rest of the queue. -/
theorem haltedRunsStayHalted : Obligations.HaltedRunsStayHalted := by
  intro es rest s hhalt hr hp hes
  induction es generalizing s with
  | nil => exact ⟨s, rfl, rfl, hp⟩
  | cons e es ih =>
    obtain ⟨he, hes⟩ := List.forall_mem_cons.1 hes
    obtain ⟨env, hstep, hpend, hreset⟩ := step_of_halted (nextEvent_of_pending hp) he hr hhalt
    obtain ⟨t, ht, hsame, hrest⟩ := ih { s with env := env } hhalt hreset hpend hes
    exact ⟨t, (run_succ_of_step hstep es.length).trans ht, hsame, hrest⟩

end Sys2Proof.Machine
end

section
/-! SUPPORT. What a `timer_tick`, a key poll and a `cpu_step` do to the delay timer and to a key wait, and what follows along a run without end under the fairness assumed of the host: the statements of 70_reset_and_hazards.md (R287). -/

namespace Sys2Proof.Machine

theorem nextEvent_eq_of_nextIs {s : State} {e : Event} (h : s.nextIs e) : nextEvent s = (e, (nextEvent s).2) :=
  Prod.ext h rfl

/-! Ticks that keep arriving (R212, R213). -/

/-- Outside `Halted` a `timer_tick` answers with the timers ticked. -/
theorem eq_tickTimers_of_step {s t : State} (hrun : s.status ≠ .halted) (h : s.nextIs .timerTick)
    (hstep : step s = .next t) : ∃ env : Env, t = tickTimers { s with env := env } := by
  have hnext := nextEvent_eq_of_nextIs h
  have hr := hasReset_of_step_eq_next hnext rfl hstep
  cases (step_of_tick hnext hr hrun).symm.trans hstep
  exact ⟨_, rfl⟩

/-- Settles O54: the delay timer has a least value in the run, and a tick after that is reached would lower it, unless it is 0. -/
theorem fairTicksBringTheDelayTimerToZero : Obligations.FairTicksBringTheDelayTimerToZero := by
  intro σ hσ hticks hrun hfalls
  have hanti : Antitone fun k => (σ k).dt.toNat := antitone_nat_of_succ_le hfalls
  obtain ⟨n, hleast⟩ : ∃ n, ∀ k, (σ n).dt.toNat ≤ (σ k).dt.toNat :=
    ⟨_, fun k => Function.argmin_le (fun j => (σ j).dt.toNat) k⟩
  obtain ⟨m, hnm, htick⟩ := hticks n
  obtain ⟨env, ht⟩ := eq_tickTimers_of_step (hrun m) htick (hσ m)
  have hlowered : (σ (m + 1)).dt.toNat = (σ m).dt.toNat - 1 := ht ▸ toNat_tickValue (σ m).dt
  have hbound : (σ m).dt.toNat ≤ (σ m).dt.toNat - 1 := (hanti hnm).trans (hlowered ▸ hleast (m + 1))
  exact ⟨m, (byte_eq_zero_iff _).2 (by omega)⟩

/-! A key that is held while `cpu_step` events keep arriving (R234, D17). -/

/-- In `WaitKey(x)` a `cpu_step` answers with a poll of the inputs it presents. -/
theorem eq_keyPoll_of_step {s t : State} {x : RegIx} {inp : Inputs} (hw : s.status = .waitKey x)
    (h : s.nextIs (.cpuStep inp)) (hstep : step s = .next t) :
    ∃ env : Env, env.inputs = inp ∧ t = keyPoll x { s with env := env } := by
  have hnext := nextEvent_eq_of_nextIs h
  have hr := hasReset_of_step_eq_next hnext rfl hstep
  cases (step_of_waitKey hnext hr hw).symm.trans hstep
  exact ⟨_, rfl, rfl⟩

/-- The wait for a key in `V[x]` is over: the core runs, with the index of a key there. -/
def KeyReported (x : RegIx) (s : State) : Prop := s.status = .running ∧ (s.reg x).toNat < 16

theorem keyReported_keyPoll (x : RegIx) {s : State} (h : s.env.inputs.keys ≠ 0) : KeyReported x (keyPoll x s) := by
  obtain ⟨hrun, hlt, -⟩ := keyPoll_of_keys_ne_zero x h
  exact ⟨hrun, hlt⟩

/-- Without a reset a step keeps the wait or ends it with a key. -/
theorem waitKey_or_keyReported_of_step {s t : State} {x : RegIx} (hw : s.status = .waitKey x)
    (he : (nextEvent s).1.keepsRunning = true) (hstep : step s = .next t) :
    t.status = .waitKey x ∨ KeyReported x t := by
  cases h : (nextEvent s).1 with
  | reset program => rw [h] at he; cases he
  | timerTick =>
    obtain ⟨env, rfl⟩ := eq_tickTimers_of_step (by simp [hw]) h hstep
    exact .inl hw
  | cpuStep inp =>
    obtain ⟨env, -, rfl⟩ := eq_keyPoll_of_step hw h hstep
    by_cases hkeys : env.inputs.keys = 0
    · rw [keyPoll_of_keys_eq_zero x hkeys]
      exact .inl rfl
    · exact .inr (keyReported_keyPoll x hkeys)

/-- Settles O55: as long as no key is reported the wait lasts, so the first `cpu_step` after the key is held finds the core waiting, and reports it. -/
theorem fairKeyPressesEndTheKeyWait : Obligations.FairKeyPressesEndTheKeyWait := by
  intro σ x hσ hnoReset hcycles ⟨n, hheld⟩ hwait
  by_contra hnever
  have hunreported (k : Nat) : ¬ KeyReported x (σ k) := fun hk => hnever ⟨k, hk⟩
  have hwaits (k : Nat) : (σ k).status = .waitKey x := by
    induction k with
    | zero => exact hwait
    | succ k ih =>
      exact (waitKey_or_keyReported_of_step ih (hnoReset k) (hσ k)).resolve_right (hunreported (k + 1))
  obtain ⟨m, inp, hnm, hcycle⟩ := hcycles n
  obtain ⟨env, rfl, ht⟩ := eq_keyPoll_of_step (hwaits m) hcycle (hσ m)
  exact hunreported (m + 1) (ht ▸ keyReported_keyPoll x (hheld m _ hnm hcycle))

/-! The delay timer over a `cpu_step` (R37, R217). -/

/-- Of the instructions SDT alone writes DT (R37). -/
theorem eq_sdt_of_dt_mem_writtenParts {i : Instr} (h : Part.dt ∈ writtenParts i) : ∃ x, i = .sdt x := by
  cases i with
  | sdt x => exact ⟨x, rfl⟩
  | adi => simp only [writtenParts] at h; split at h <;> simp at h
  | _ => simp [writtenParts] at h

theorem exec_dt {i : Instr} {s t : State} (h : exec i s = .next t) (hi : ∀ x, i ≠ .sdt x) : t.dt = s.dt := by
  rcases exec_cases h with ⟨k, rfl⟩ | hw
  · exact raise_dt k s
  · refine hw.unchangedExcept .dt fun hdt => ?_
    obtain ⟨x, hx⟩ := eq_sdt_of_dt_mem_writtenParts hdt
    exact hi x hx

/-- A cycle that decodes no SDT keeps DT, also where it halts in its fetch or decode stage (R243). -/
theorem cycle_dt {s t : State} (h : cycle s = .next t)
    (hsdt : ∀ x, decode (s.byte s.pc.toNat) (s.byte (s.pc.toNat + 1)) ≠ .ok (.sdt x)) : t.dt = s.dt := by
  rcases Nat.lt_or_ge s.pc.toNat 4094 with hlt | hge
  · cases hd : decode (s.byte s.pc.toNat) (s.byte (s.pc.toNat + 1)) with
    | error e =>
      cases (cycle_of_decode_error hlt hd).symm.trans h
      rfl
    | ok i =>
      have hkept := exec_dt ((cycle_of_decode_ok hlt hd).symm.trans h) fun x hx => hsdt x (hx ▸ hd)
      exact hkept
  · cases (cycle_of_ge hge).symm.trans h
    rfl

/-- Settles O56, status by status: a halted block changes nothing, a key poll writes no timer, and a cycle keeps DT. -/
theorem cpuStepsChangeTheDelayTimerOnlyBySdt : Obligations.CpuStepsChangeTheDelayTimerOnlyBySdt := by
  intro s s1 t inp h hstep hsdt
  have hr := hasReset_of_step_eq_next h rfl hstep
  cases hst : s.status with
  | halted =>
    obtain ⟨env, hkept, -, -⟩ := step_of_halted h rfl hr hst
    cases hkept.symm.trans hstep
    rfl
  | waitKey x =>
    cases (step_of_waitKey h hr hst).symm.trans hstep
    exact (WritesOnly.keyPoll x _).unchangedExcept .dt (by simp)
  | running =>
    obtain ⟨env, -, hcycle⟩ := step_of_running h hr hst
    exact cycle_dt (s := { s with env := env }) (hcycle.symm.trans hstep) fun x => hsdt x hst

end Sys2Proof.Machine
end
